-- ==== Sys2Proof/Word.lean ====
section
/-! DEFINITION. The word types of the core (00_scope.md R5 "Widths", R7). All values are unsigned. -/

namespace Sys2Proof

/-- A byte: a V register, a timer, a memory cell, the immediate kk. -/
abbrev Byte := BitVec 8

/-- 16 bits: an instruction word, I, PC, a return address. -/
abbrev Word := BitVec 16

/-- The 12-bit immediate nnn. -/
abbrev Addr := BitVec 12

/-- The 4-bit immediate n. -/
abbrev Nibble := BitVec 4

/-- A general register's number: the fields x and y (10_state.md R10). -/
abbrev Reg := Fin 16

end Sys2Proof
end

