-- ==== Sys2Proof/Syntax.lean ====
section
/-! DEFINITION. The instructions: one constructor per row of spec/opcode_table.json, in the table's order
(30_encoding.md R65). Operand types are exactly the field widths of R61, so every term is an instruction the hardware
has. -/

namespace Sys2Proof

/-- The 34 operations (30_encoding.md R65, R70). -/
inductive Instr where
  /-- `00E0` CLS (R140). -/
  | cls
  /-- `00EE` RET (R82). -/
  | ret
  /-- `1nnn` JP nnn (R83). -/
  | jp (nnn : Addr)
  /-- `2nnn` CALL nnn (R84). -/
  | call (nnn : Addr)
  /-- `3xkk` SE Vx, kk (R85). -/
  | seImm (x : Reg) (kk : Byte)
  /-- `4xkk` SNE Vx, kk (R86). -/
  | sneImm (x : Reg) (kk : Byte)
  /-- `5xy0` SE Vx, Vy (R87). -/
  | seReg (x y : Reg)
  /-- `6xkk` LD Vx, kk (R100). -/
  | ldImm (x : Reg) (kk : Byte)
  /-- `7xkk` ADD Vx, kk (R101). -/
  | addImm (x : Reg) (kk : Byte)
  /-- `8xy0` LD Vx, Vy (R102). -/
  | ldReg (x y : Reg)
  /-- `8xy1` OR Vx, Vy (R103). -/
  | orReg (x y : Reg)
  /-- `8xy2` AND Vx, Vy (R104). -/
  | andReg (x y : Reg)
  /-- `8xy3` XOR Vx, Vy (R105). -/
  | xorReg (x y : Reg)
  /-- `8xy4` ADD Vx, Vy (R106). -/
  | addReg (x y : Reg)
  /-- `8xy5` SUB Vx, Vy (R107). -/
  | subReg (x y : Reg)
  /-- `8xy6` SHR Vx (R108); y is carried so that each word has a term of its own (R71). -/
  | shr (x y : Reg)
  /-- `8xy7` SUBN Vx, Vy (R109). -/
  | subn (x y : Reg)
  /-- `8xyE` SHL Vx (R110); y is carried as in `shr` (R71). -/
  | shl (x y : Reg)
  /-- `9xy0` SNE Vx, Vy (R88). -/
  | sneReg (x y : Reg)
  /-- `Annn` LD I, nnn (R120). -/
  | ldI (nnn : Addr)
  /-- `Bnnn` JP V0, nnn (R89). -/
  | jpV0 (nnn : Addr)
  /-- `Cxkk` RND Vx, kk (R111). -/
  | rnd (x : Reg) (kk : Byte)
  /-- `Dxyn` DRW Vx, Vy, n (R141). -/
  | drw (x y : Reg) (n : Nibble)
  /-- `Ex9E` SKP Vx (R150). -/
  | skp (x : Reg)
  /-- `ExA1` SKNP Vx (R151). -/
  | sknp (x : Reg)
  /-- `Fx07` LD Vx, DT (R153). -/
  | ldVxDt (x : Reg)
  /-- `Fx0A` LD Vx, K (R152). -/
  | ldVxKey (x : Reg)
  /-- `Fx15` LD DT, Vx (R154). -/
  | ldDtVx (x : Reg)
  /-- `Fx18` LD ST, Vx (R155). -/
  | ldStVx (x : Reg)
  /-- `Fx1E` ADD I, Vx (R121). -/
  | addI (x : Reg)
  /-- `Fx29` LD F, Vx (R122). -/
  | ldFont (x : Reg)
  /-- `Fx33` LD B, Vx (R123). -/
  | ldBcd (x : Reg)
  /-- `Fx55` LD [I], Vx (R124). -/
  | storeRegs (x : Reg)
  /-- `Fx65` LD Vx, [I] (R125). -/
  | loadRegs (x : Reg)
  deriving DecidableEq, Repr

end Sys2Proof
end

