-- ==== Sys2Proof/WellFormed.lean ====
section
/-! DEFINITION. Which 16-bit words are instructions: the mask and match of every row of spec/opcode_table.json
(30_encoding.md R64, R65). An Instr is well formed by its operand types alone (Syntax.lean), so the check is on raw
words: a word is well formed when it matches a row, and it is undefined otherwise (R66). -/

namespace Sys2Proof

/-- One row of the opcode map: its mnemonic in spec/opcode_table.json, and the bits that are fixed in its words. -/
structure Row where
  mnemonic : String
  mask : Word
  value : Word
  deriving DecidableEq, Repr

/-- The word has the row's pattern: `(op & mask) == match` (R64). -/
def Row.accepts (r : Row) (op : Word) : Bool := op &&& r.mask == r.value

/-- `00E0` (R140). -/
def Row.cls : Row := ⟨"CLS", 0xFFFF, 0x00E0⟩

/-- `00EE` (R82). -/
def Row.ret : Row := ⟨"RET", 0xFFFF, 0x00EE⟩

/-- `1nnn` (R83). -/
def Row.jp : Row := ⟨"JP_nnn", 0xF000, 0x1000⟩

/-- `2nnn` (R84). -/
def Row.call : Row := ⟨"CALL_nnn", 0xF000, 0x2000⟩

/-- `3xkk` (R85). -/
def Row.seImm : Row := ⟨"SE_Vx__kk", 0xF000, 0x3000⟩

/-- `4xkk` (R86). -/
def Row.sneImm : Row := ⟨"SNE_Vx__kk", 0xF000, 0x4000⟩

/-- `5xy0` (R87). -/
def Row.seReg : Row := ⟨"SE_Vx__Vy", 0xF00F, 0x5000⟩

/-- `6xkk` (R100). -/
def Row.ldImm : Row := ⟨"LD_Vx__kk", 0xF000, 0x6000⟩

/-- `7xkk` (R101). -/
def Row.addImm : Row := ⟨"ADD_Vx__kk", 0xF000, 0x7000⟩

/-- `8xy0` (R102). -/
def Row.ldReg : Row := ⟨"LD_Vx__Vy", 0xF00F, 0x8000⟩

/-- `8xy1` (R103). -/
def Row.orReg : Row := ⟨"OR_Vx__Vy", 0xF00F, 0x8001⟩

/-- `8xy2` (R104). -/
def Row.andReg : Row := ⟨"AND_Vx__Vy", 0xF00F, 0x8002⟩

/-- `8xy3` (R105). -/
def Row.xorReg : Row := ⟨"XOR_Vx__Vy", 0xF00F, 0x8003⟩

/-- `8xy4` (R106). -/
def Row.addReg : Row := ⟨"ADD_Vx__Vy", 0xF00F, 0x8004⟩

/-- `8xy5` (R107). -/
def Row.subReg : Row := ⟨"SUB_Vx__Vy", 0xF00F, 0x8005⟩

/-- `8xy6` (R108). -/
def Row.shr : Row := ⟨"SHR_Vx__Vy", 0xF00F, 0x8006⟩

/-- `8xy7` (R109). -/
def Row.subn : Row := ⟨"SUBN_Vx__Vy", 0xF00F, 0x8007⟩

/-- `8xyE` (R110). -/
def Row.shl : Row := ⟨"SHL_Vx__Vy", 0xF00F, 0x800E⟩

/-- `9xy0` (R88). -/
def Row.sneReg : Row := ⟨"SNE_Vx__Vy", 0xF00F, 0x9000⟩

/-- `Annn` (R120). -/
def Row.ldI : Row := ⟨"LD_I__nnn", 0xF000, 0xA000⟩

/-- `Bnnn` (R89). -/
def Row.jpV0 : Row := ⟨"JP_V0__nnn", 0xF000, 0xB000⟩

/-- `Cxkk` (R111). -/
def Row.rnd : Row := ⟨"RND_Vx__kk", 0xF000, 0xC000⟩

/-- `Dxyn` (R141). -/
def Row.drw : Row := ⟨"DRW_Vx__Vy__n", 0xF000, 0xD000⟩

/-- `Ex9E` (R150). -/
def Row.skp : Row := ⟨"SKP_Vx", 0xF0FF, 0xE09E⟩

/-- `ExA1` (R151). -/
def Row.sknp : Row := ⟨"SKNP_Vx", 0xF0FF, 0xE0A1⟩

/-- `Fx07` (R153). -/
def Row.ldVxDt : Row := ⟨"LD_Vx__DT", 0xF0FF, 0xF007⟩

/-- `Fx0A` (R152). -/
def Row.ldVxKey : Row := ⟨"LD_Vx__K", 0xF0FF, 0xF00A⟩

/-- `Fx15` (R154). -/
def Row.ldDtVx : Row := ⟨"LD_DT__Vx", 0xF0FF, 0xF015⟩

/-- `Fx18` (R155). -/
def Row.ldStVx : Row := ⟨"LD_ST__Vx", 0xF0FF, 0xF018⟩

/-- `Fx1E` (R121). -/
def Row.addI : Row := ⟨"ADD_I__Vx", 0xF0FF, 0xF01E⟩

/-- `Fx29` (R122). -/
def Row.ldFont : Row := ⟨"LD_F__Vx", 0xF0FF, 0xF029⟩

/-- `Fx33` (R123). -/
def Row.ldBcd : Row := ⟨"LD_B__Vx", 0xF0FF, 0xF033⟩

/-- `Fx55` (R124). -/
def Row.storeRegs : Row := ⟨"LD__I___Vx", 0xF0FF, 0xF055⟩

/-- `Fx65` (R125). -/
def Row.loadRegs : Row := ⟨"LD_Vx___I", 0xF0FF, 0xF065⟩

/-- The opcode map, in the table's order (R65). -/
def opcodeTable : List Row :=
  [Row.cls, Row.ret, Row.jp, Row.call, Row.seImm, Row.sneImm, Row.seReg] ++
  [Row.ldImm, Row.addImm, Row.ldReg, Row.orReg, Row.andReg, Row.xorReg, Row.addReg, Row.subReg, Row.shr, Row.subn, Row.shl] ++
  [Row.sneReg, Row.ldI, Row.jpV0, Row.rnd, Row.drw, Row.skp, Row.sknp] ++
  [Row.ldVxDt, Row.ldVxKey, Row.ldDtVx, Row.ldStVx, Row.addI, Row.ldFont, Row.ldBcd, Row.storeRegs, Row.loadRegs]

/-- The row an instruction belongs to. -/
def Instr.row : Instr → Row
  | .cls => Row.cls
  | .ret => Row.ret
  | .jp _ => Row.jp
  | .call _ => Row.call
  | .seImm _ _ => Row.seImm
  | .sneImm _ _ => Row.sneImm
  | .seReg _ _ => Row.seReg
  | .ldImm _ _ => Row.ldImm
  | .addImm _ _ => Row.addImm
  | .ldReg _ _ => Row.ldReg
  | .orReg _ _ => Row.orReg
  | .andReg _ _ => Row.andReg
  | .xorReg _ _ => Row.xorReg
  | .addReg _ _ => Row.addReg
  | .subReg _ _ => Row.subReg
  | .shr _ _ => Row.shr
  | .subn _ _ => Row.subn
  | .shl _ _ => Row.shl
  | .sneReg _ _ => Row.sneReg
  | .ldI _ => Row.ldI
  | .jpV0 _ => Row.jpV0
  | .rnd _ _ => Row.rnd
  | .drw _ _ _ => Row.drw
  | .skp _ => Row.skp
  | .sknp _ => Row.sknp
  | .ldVxDt _ => Row.ldVxDt
  | .ldVxKey _ => Row.ldVxKey
  | .ldDtVx _ => Row.ldDtVx
  | .ldStVx _ => Row.ldStVx
  | .addI _ => Row.addI
  | .ldFont _ => Row.ldFont
  | .ldBcd _ => Row.ldBcd
  | .storeRegs _ => Row.storeRegs
  | .loadRegs _ => Row.loadRegs

/-- The word is an instruction: it matches a row of the opcode map. The words it refuses are those of R66. -/
def wordWellFormed (op : Word) : Bool := opcodeTable.any (fun r => r.accepts op)

end Sys2Proof
end

