-- ==== Sys2Proof/Decode.lean ====
section
/-! DEFINITION. Decoding and encoding (30_encoding.md R60 to R66, R71): the fields of a word, the two-level dispatch,
the words that are no instruction rejected by name, the byte order of a word in memory, and the encoder, written from
the same patterns. -/

namespace Sys2Proof

/-- Why bytes are no instruction. -/
inductive DecodeError where
  /-- Fewer than two bytes are left (R60: every instruction is 16 bits). -/
  | truncated
  /-- The word matches no row of the opcode map (R66); `step` runs it as a no-op (R90). -/
  | undefinedWord (op : Word)
  deriving DecidableEq, Repr

/-! ### Fields (R61) -/

/-- g, bits 15..12: the primary opcode. -/
def fieldG (op : Word) : Nibble := op.extractLsb' 12 4

/-- x, bits 11..8. -/
def fieldX (op : Word) : Reg := (op.extractLsb' 8 4).toFin

/-- y, bits 7..4. -/
def fieldY (op : Word) : Reg := (op.extractLsb' 4 4).toFin

/-- n, bits 3..0. -/
def fieldN (op : Word) : Nibble := op.extractLsb' 0 4

/-- kk, bits 7..0. -/
def fieldKK (op : Word) : Byte := op.extractLsb' 0 8

/-- nnn, bits 11..0. -/
def fieldNNN (op : Word) : Addr := op.extractLsb' 0 12

/-! ### Decoding (R64) -/

/-- Group 0: the whole word selects (R64). -/
def decodeGroup0 (op : Word) : Except DecodeError Instr :=
  if op = 0x00E0#16 then .ok .cls
  else if op = 0x00EE#16 then .ok .ret
  else .error (.undefinedWord op)

/-- Group 5: the low nibble selects (R64). -/
def decodeGroup5 (op : Word) : Except DecodeError Instr :=
  if fieldN op = 0x0#4 then .ok (.seReg (fieldX op) (fieldY op)) else .error (.undefinedWord op)

/-- Group 8: the low nibble selects (R64). -/
def decodeGroup8 (op : Word) : Except DecodeError Instr :=
  match (fieldN op).toNat with
  | 0x0 => .ok (.ldReg (fieldX op) (fieldY op))
  | 0x1 => .ok (.orReg (fieldX op) (fieldY op))
  | 0x2 => .ok (.andReg (fieldX op) (fieldY op))
  | 0x3 => .ok (.xorReg (fieldX op) (fieldY op))
  | 0x4 => .ok (.addReg (fieldX op) (fieldY op))
  | 0x5 => .ok (.subReg (fieldX op) (fieldY op))
  | 0x6 => .ok (.shr (fieldX op) (fieldY op))
  | 0x7 => .ok (.subn (fieldX op) (fieldY op))
  | 0xE => .ok (.shl (fieldX op) (fieldY op))
  | _ => .error (.undefinedWord op)

/-- Group 9: the low nibble selects (R64). -/
def decodeGroup9 (op : Word) : Except DecodeError Instr :=
  if fieldN op = 0x0#4 then .ok (.sneReg (fieldX op) (fieldY op)) else .error (.undefinedWord op)

/-- Group E: the low byte selects (R64). -/
def decodeGroupE (op : Word) : Except DecodeError Instr :=
  if fieldKK op = 0x9E#8 then .ok (.skp (fieldX op))
  else if fieldKK op = 0xA1#8 then .ok (.sknp (fieldX op))
  else .error (.undefinedWord op)

/-- Group F: the low byte selects (R64). -/
def decodeGroupF (op : Word) : Except DecodeError Instr :=
  if fieldKK op = 0x07#8 then .ok (.ldVxDt (fieldX op))
  else if fieldKK op = 0x0A#8 then .ok (.ldVxKey (fieldX op))
  else if fieldKK op = 0x15#8 then .ok (.ldDtVx (fieldX op))
  else if fieldKK op = 0x18#8 then .ok (.ldStVx (fieldX op))
  else if fieldKK op = 0x1E#8 then .ok (.addI (fieldX op))
  else if fieldKK op = 0x29#8 then .ok (.ldFont (fieldX op))
  else if fieldKK op = 0x33#8 then .ok (.ldBcd (fieldX op))
  else if fieldKK op = 0x55#8 then .ok (.storeRegs (fieldX op))
  else if fieldKK op = 0x65#8 then .ok (.loadRegs (fieldX op))
  else .error (.undefinedWord op)

/-- The instruction a word is, dispatched on the group and then within it (R64), or the word rejected by name. -/
def decodeWord (op : Word) : Except DecodeError Instr :=
  match (fieldG op).toNat with
  | 0x0 => decodeGroup0 op
  | 0x1 => .ok (.jp (fieldNNN op))
  | 0x2 => .ok (.call (fieldNNN op))
  | 0x3 => .ok (.seImm (fieldX op) (fieldKK op))
  | 0x4 => .ok (.sneImm (fieldX op) (fieldKK op))
  | 0x5 => decodeGroup5 op
  | 0x6 => .ok (.ldImm (fieldX op) (fieldKK op))
  | 0x7 => .ok (.addImm (fieldX op) (fieldKK op))
  | 0x8 => decodeGroup8 op
  | 0x9 => decodeGroup9 op
  | 0xA => .ok (.ldI (fieldNNN op))
  | 0xB => .ok (.jpV0 (fieldNNN op))
  | 0xC => .ok (.rnd (fieldX op) (fieldKK op))
  | 0xD => .ok (.drw (fieldX op) (fieldY op) (fieldN op))
  | 0xE => decodeGroupE op
  | _ => decodeGroupF op

/-- The word two consecutive bytes spell: the first, at the lower address, is the high byte (R44, R60). -/
def wordOfBytes (hi lo : Byte) : Word := hi ++ lo

/-- The high byte of a word, stored at the lower address (R44). -/
def highByte (op : Word) : Byte := op.extractLsb' 8 8

/-- The low byte of a word, stored at the higher address (R44). -/
def lowByte (op : Word) : Byte := op.extractLsb' 0 8

/-- Decoding on any bytes: the instruction of the first two, with the rest. -/
def decode : List Byte → Except DecodeError (Instr × List Byte)
  | hi :: lo :: rest =>
    match decodeWord (wordOfBytes hi lo) with
    | .ok i => .ok (i, rest)
    | .error e => .error e
  | _ => .error .truncated

/-- The host's question: the instruction whose bits are w, numbered as spec/opcode_table.json numbers them. A row is
one 16-bit word, so bit 15 is the top bit of the first byte in memory. -/
def decodeTableWord (nbits w : Nat) : Option Instr :=
  let op : Word := BitVec.ofNat 16 (w % 2 ^ nbits)
  match decode [highByte op, lowByte op] with
  | .ok (i, _) => some i
  | .error _ => none

/-! ### Encoding (R62, R65): the six formats and the word of every instruction -/

/-- A register number as its 4-bit field. -/
def regBits (x : Reg) : Nibble := BitVec.ofFin x

/-- Format A: group and 12-bit address. -/
def formatA (g : Nibble) (nnn : Addr) : Word := g ++ nnn

/-- Format XK: group, register and byte. -/
def formatXK (g : Nibble) (x : Reg) (kk : Byte) : Word := g ++ regBits x ++ kk

/-- Formats XY and XYN: group, two registers and the low nibble. -/
def formatXY (g : Nibble) (x y : Reg) (n : Nibble) : Word := g ++ regBits x ++ regBits y ++ n

/-- The word of an instruction. -/
def encode : Instr → Word
  | .cls => 0x00E0
  | .ret => 0x00EE
  | .jp nnn => formatA 0x1 nnn
  | .call nnn => formatA 0x2 nnn
  | .seImm x kk => formatXK 0x3 x kk
  | .sneImm x kk => formatXK 0x4 x kk
  | .seReg x y => formatXY 0x5 x y 0x0
  | .ldImm x kk => formatXK 0x6 x kk
  | .addImm x kk => formatXK 0x7 x kk
  | .ldReg x y => formatXY 0x8 x y 0x0
  | .orReg x y => formatXY 0x8 x y 0x1
  | .andReg x y => formatXY 0x8 x y 0x2
  | .xorReg x y => formatXY 0x8 x y 0x3
  | .addReg x y => formatXY 0x8 x y 0x4
  | .subReg x y => formatXY 0x8 x y 0x5
  | .shr x y => formatXY 0x8 x y 0x6
  | .subn x y => formatXY 0x8 x y 0x7
  | .shl x y => formatXY 0x8 x y 0xE
  | .sneReg x y => formatXY 0x9 x y 0x0
  | .ldI nnn => formatA 0xA nnn
  | .jpV0 nnn => formatA 0xB nnn
  | .rnd x kk => formatXK 0xC x kk
  | .drw x y n => formatXY 0xD x y n
  | .skp x => formatXK 0xE x 0x9E
  | .sknp x => formatXK 0xE x 0xA1
  | .ldVxDt x => formatXK 0xF x 0x07
  | .ldVxKey x => formatXK 0xF x 0x0A
  | .ldDtVx x => formatXK 0xF x 0x15
  | .ldStVx x => formatXK 0xF x 0x18
  | .addI x => formatXK 0xF x 0x1E
  | .ldFont x => formatXK 0xF x 0x29
  | .ldBcd x => formatXK 0xF x 0x33
  | .storeRegs x => formatXK 0xF x 0x55
  | .loadRegs x => formatXK 0xF x 0x65

/-- The two bytes of an instruction as memory holds them, high byte first (R44). -/
def encodeBytes (i : Instr) : List Byte := [highByte (encode i), lowByte (encode i)]

end Sys2Proof
end

