-- ==== Sys2Proof/Config.lean ====
section
/-! DEFINITION. What an implementation fixes (00_scope.md R5) and the two values the spec leaves open: the font bytes
and the random bytes. The open values are opaque: no proof can see one. REGBLOCK_INCLUSIVE and I_OVERFLOW stand in
Machine/Operands.lean, at the operations they govern. -/

namespace Sys2Proof

/-- N: the memory holds the addresses 0..4095 (R5, R18). -/
abbrev Config.memSize : Nat := 4096

/-- LOAD_ADDR: where `load` puts a program, and the PC after it (R5, R212). -/
abbrev Config.loadAddr : Nat := 512

/-- W: columns of the framebuffer (R5, R19). -/
abbrev Config.width : Nat := 64

/-- H: rows of the framebuffer (R5, R19). -/
abbrev Config.height : Nat := 32

/-- STACK_DEPTH: return-address slots (R5, R15). -/
abbrev Config.stackDepth : Nat := 16

/-- NUM_KEYS: virtual keys 0x0..0xF (R5, R20). -/
abbrev Config.numKeys : Nat := 16

/-- GLYPH_HEIGHT: bytes of one font glyph (R5, R122). -/
abbrev Config.glyphHeight : Nat := 5

/-- FONT_SIZE: the font lies at the addresses 0..79, FONT_BASE being 0 (R5, R48). -/
abbrev Config.fontSize : Nat := 80

/-- FONT[0..79]: a parameter whose bytes are in no source (R5, R48; 91_not_in_source.md N7). Free value, log entry 2. -/
opaque Config.font : Fin 80 → Byte

/-- The byte the random source supplies to the n-th draw (41_alu.md R111). Free value, log entry 3. -/
opaque Config.randomByte : Nat → Byte

end Sys2Proof
end

