-- ==== Sys2Proof/Machine/State.lean ====
section
/-! DEFINITION. The state of the core, whole (10_state.md R10 to R27), as plain data, and its value after reset (R23).
The last three fields are the model's own and stand for the agents outside the core: the random source, the host's
schedule and the value last returned to the host (log entries 3, 4, 5). -/

namespace Sys2Proof.Machine

/-- Why a step of the model faults. Nothing raises one: every stop the spec describes is a fatal condition, and taking
it is a NEXT state in MODE = HALTED (60_exceptions.md R170; log entry 1). -/
inductive Fault where
  /-- Raised by nothing; the type has a term, so that "no step faults" is a theorem about `step`. Safe. -/
  | unraised
  deriving DecidableEq, Repr

/-- Why an instruction has no meaning. -/
inductive Refusal where
  /-- An arm of `exec` whose instruction is not modelled yet. No arm is left in this form. Safe. -/
  | notModelled (mnemonic : String)
  deriving DecidableEq, Repr

/-- The causes of a fatal condition (60_exceptions.md R171). -/
inductive FatalCause where
  /-- 1: a memory address outside 0..4095. -/
  | memOob
  /-- 2: a push with SP = 16. -/
  | stackOverflow
  /-- 3: a pop with SP = 0. -/
  | stackUnderflow
  /-- 4: a key number of 16 or more. -/
  | keyOob
  /-- 5: a pixel outside the grid, asked for by the host. -/
  | screenOob
  /-- 6: a program image that does not fit. -/
  | loadTooLarge
  deriving DecidableEq, Repr

/-- `Fatal(cause, info)` (00_scope.md R8): what an operation raises when it is abandoned. -/
structure Fatal where
  cause : FatalCause
  info : Nat
  deriving DecidableEq, Repr

/-- MODE (10_state.md R21). -/
inductive Mode where
  /-- The next step fetches and executes an instruction. -/
  | run
  /-- An `Fx0A` waits for a key event; x receives the key. -/
  | waitKey (x : Reg)
  /-- A fatal condition occurred; only `reset` leaves this mode. -/
  | halted (cause : FatalCause) (info : Nat)
  deriving DecidableEq, Repr

/-- The operations of the core's interface (00_scope.md R6): one of the core, nine of the host. Arguments are the
naturals the host may pass, in range or not. -/
inductive Operation where
  /-- The core's step (R80). -/
  | step
  /-- R210. -/
  | reset
  /-- R212. -/
  | load (buf : List Byte)
  /-- R182. -/
  | tick
  /-- R185. -/
  | keyDown (k : Nat)
  /-- R185. -/
  | keyUp (k : Nat)
  /-- R186. -/
  | keyEvent (k : Nat)
  /-- R188: x is the column, y the row. -/
  | isSet (x y : Nat)
  /-- R184. -/
  | soundRead
  /-- R184. -/
  | soundConsume
  deriving DecidableEq, Repr

/-- A value an operation returns to the host (R184, R188). -/
inductive Reply where
  | pixel (isOn : Bool)
  | sound (ticks : Byte)
  deriving DecidableEq, Repr

/-- The bytes of MEM that differ from their reset contents, by strictly rising address (`Memory.wf`). -/
abbrev Memory := List Host.Cell

/-- FB: row r, then column c (10_state.md R19). -/
abbrev Framebuffer := Vector (Vector Bool 64) 32

/-- Everything the spec gives the machine (10_state.md R22), and the model's own three fields. -/
structure State where
  /-- V0..VF; VF is V[15] (R10, R11). -/
  v : Vector Byte 16
  /-- The index register I (R12). -/
  i : Word
  /-- The program counter (R13). -/
  pc : Word
  /-- The number of return addresses on the stack, 0..16 (R14, C3). -/
  sp : Fin 17
  /-- The return-address slots (R15). -/
  stack : Vector Word 16
  /-- The delay timer (R16). -/
  dt : Byte
  /-- The sound timer (R17). -/
  st : Byte
  /-- MEM (R18). -/
  mem : Memory
  /-- FB (R19). -/
  fb : Framebuffer
  /-- KEY, true is down (R20). -/
  key : Vector Bool 16
  /-- MODE (R21). -/
  mode : Mode
  /-- The model's own: how many random bytes have been drawn (log entry 3). -/
  draws : Nat
  /-- The model's own: the operations that come next, the first first; a step of the core where none is listed
  (log entry 4). -/
  schedule : List Operation
  /-- The model's own: the value last returned to the host (log entry 5). -/
  reply : Option Reply
  deriving DecidableEq, Repr

/-- The machine right after reset (10_state.md R23). Memory lists nothing: every byte reads as `Memory.unlisted`. -/
def State.reset : State where
  v := Vector.replicate 16 0
  i := 0
  pc := 0
  sp := 0
  stack := Vector.replicate 16 0
  dt := 0
  st := 0
  mem := []
  fb := Vector.replicate 32 (Vector.replicate 64 false)
  key := Vector.replicate 16 false
  mode := .run
  draws := 0
  schedule := []
  reply := none

end Sys2Proof.Machine
end

