-- ==== Sys2Proof/Machine/Ops.lean ====
section
/-! DEFINITION. The named operations over the state: the fatal condition (the one kind of exception, taken in one
place), registers, memory, the stack, the framebuffer, the keys. There is no return from a fatal condition
(60_exceptions.md R179), so none stands beside it. -/

namespace Sys2Proof.Machine

/-! ### The fatal condition (60_exceptions.md R170 to R178) -/

/-- The code of a cause (R171). -/
def FatalCause.code : FatalCause → Nat
  | .memOob => 1
  | .stackOverflow => 2
  | .stackUnderflow => 3
  | .keyOob => 4
  | .screenOob => 5
  | .loadTooLarge => 6

/-- `raise Fatal(cause, info)`: nothing is saved, no vector is consulted, MODE becomes HALTED(cause, info) (R170). It is
applied to the state the failing operation found, so none of that operation's writes is in it. -/
def raiseFatal (f : Fatal) (s : State) : State := { s with mode := .halted f.cause f.info }

/-- An operation's writes are committed as a unit, or the fatal condition it met is taken (R81, R178). -/
def commit (s : State) (r : Except Fatal State) : Host.Outcome State Fault Refusal :=
  match r with
  | .ok t => .next t
  | .error f => .next (raiseFatal f s)

/-! ### Registers -/

/-- V[x] (10_state.md R10). -/
def State.getV (s : State) (x : Reg) : Byte := s.v[x.val]

/-- V[x] <- b. No register is hard-wired (R10). -/
def State.setV (s : State) (x : Reg) (b : Byte) : State := { s with v := s.v.set x.val b }

/-- VF, the flag register (R11). -/
def vf : Reg := 15

/-- I <- w (R12). -/
def State.setI (s : State) (w : Word) : State := { s with i := w }

/-- PC <- target; no target is checked when PC is written (40_control_flow.md R91). -/
def State.setPc (s : State) (target : Word) : State := { s with pc := target }

/-- MEM, whole. -/
def State.setMem (s : State) (m : Memory) : State := { s with mem := m }

/-- FB, whole. -/
def State.setFb (s : State) (fb : Framebuffer) : State := { s with fb := fb }

/-- MODE <- m (R21). -/
def State.setMode (s : State) (m : Mode) : State := { s with mode := m }

/-- One byte has been drawn from the random source (41_alu.md R111; log entry 3). -/
def State.drawn (s : State) : State := { s with draws := s.draws + 1 }

/-! ### Memory (20_memory.md) -/

/-- What a byte that nothing has written reads as: the reset contents, the font at 0..79 and 0 elsewhere (R23, R48). -/
def Memory.unlisted (a : Nat) : Byte := if h : a < 80 then Config.font ⟨a, h⟩ else 0

/-- MEM[a], unchecked (00_scope.md R8). -/
def Memory.read : Memory → Nat → Byte
  | [], a => Memory.unlisted a
  | (b, w) :: rest, a => if a = b then w else Memory.read rest a

/-- The cells without those at address a. -/
def Memory.erase (m : Memory) (a : Nat) : Memory := m.filter (fun c => c.1 != a)

/-- The cells with (a, w) before the first cell of a higher address. -/
def Memory.insert : Memory → Nat → Byte → Memory
  | [], a, w => [(a, w)]
  | (b, u) :: rest, a, w => if a < b then (a, w) :: (b, u) :: rest else (b, u) :: Memory.insert rest a w

/-- MEM[a] <- w, unchecked, in canonical form: a byte equal to its reset contents is not listed. -/
def Memory.write (m : Memory) (a : Nat) (w : Byte) : Memory :=
  if w = Memory.unlisted a then m.erase a else (m.erase a).insert a w

/-- Consecutive bytes written from address a on, unchecked. -/
def Memory.writeBytes : Memory → Nat → List Byte → Memory
  | m, _, [] => m
  | m, a, w :: ws => Memory.writeBytes (m.write a w) (a + 1) ws

/-- The canonical form: addresses strictly rise and lie in 0..4095, and no cell holds its reset contents. -/
abbrev Memory.wf (m : Memory) : Prop :=
  m.Pairwise (fun c d => c.1 < d.1) ∧ ∀ c ∈ m, c.1 < 4096 ∧ c.2 ≠ Memory.unlisted c.1

/-- MemRead(addr, 1) (R41). -/
def memRead1 (m : Memory) (addr : Nat) : Except Fatal Byte :=
  if addr < Config.memSize then .ok (m.read addr) else .error ⟨.memOob, addr⟩

/-- MemWrite(addr, 1, w) (R42). -/
def memWrite1 (m : Memory) (addr : Nat) (w : Byte) : Except Fatal Memory :=
  if addr < Config.memSize then .ok (m.write addr w) else .error ⟨.memOob, addr⟩

/-- MemRead(addr, 2): big-endian, the high byte at addr (R43, R44). -/
def memRead2 (m : Memory) (addr : Nat) : Except Fatal Word :=
  if addr + 1 < Config.memSize then .ok (m.read addr ++ m.read (addr + 1)) else .error ⟨.memOob, addr⟩

/-- n bytes read in ascending order from addr; the first address out of range is the lowest (R46, R55). -/
def memReadBlock (m : Memory) : Nat → Nat → Except Fatal (List Byte)
  | _, 0 => .ok []
  | addr, n + 1 => do
    let b ← memRead1 m addr
    let bs ← memReadBlock m (addr + 1) n
    .ok (b :: bs)

/-- Bytes written in ascending order from addr, all or none (R46, R55). -/
def memWriteBlock : Memory → Nat → List Byte → Except Fatal Memory
  | m, _, [] => .ok m
  | m, addr, w :: ws => do
    let m' ← memWrite1 m addr w
    memWriteBlock m' (addr + 1) ws

/-! ### Stack (40_control_flow.md R82, R84) -/

/-- Push(a) (R84). -/
def push (a : Word) (s : State) : Except Fatal State :=
  if h : s.sp.val < 16 then
    .ok { s with stack := s.stack.set s.sp.val a, sp := ⟨s.sp.val + 1, by omega⟩ }
  else .error ⟨.stackOverflow, s.sp.val⟩

/-- Pop(): the slot at the new SP, and the state with SP lowered (R82). -/
def pop (s : State) : Except Fatal (Word × State) :=
  if s.sp.val = 0 then .error ⟨.stackUnderflow, 0⟩
  else .ok (s.stack[s.sp.val - 1]'(by omega), { s with sp := ⟨s.sp.val - 1, by omega⟩ })

/-! ### Framebuffer (43_display.md R140, R142) -/

/-- FB[r][c]. -/
def Framebuffer.pixel (fb : Framebuffer) (r : Fin 32) (c : Fin 64) : Bool := fb[r.val][c.val]

/-- FB[r][c] <- not FB[r][c]. -/
def Framebuffer.flip (fb : Framebuffer) (r : Fin 32) (c : Fin 64) : Framebuffer :=
  fb.set r.val (fb[r.val].set c.val (!fb[r.val][c.val]))

/-- Every pixel false (R140). -/
def Framebuffer.clear : Framebuffer := Vector.replicate 32 (Vector.replicate 64 false)

/-- The pixels under the 1 bits of one sprite row at column x, row y: bit 7 is column offset 0, and coordinates wrap
(R142). -/
def spriteRow (b : Byte) (x y : Nat) : List (Fin 32 × Fin 64) :=
  ([0, 1, 2, 3, 4, 5, 6, 7].filter (fun col => b.getLsbD (7 - col))).map
    (fun col => (⟨y % 32, by omega⟩, ⟨(x + col) % 64, by omega⟩))

/-- The pixels under the 1 bits of a sprite, rows in ascending order, columns left to right (R142). -/
def spritePixels : List Byte → Nat → Nat → List (Fin 32 × Fin 64)
  | [], _, _ => []
  | b :: bs, x, y => spriteRow b x y ++ spritePixels bs x (y + 1)

/-- Each pixel in turn: collision if it was set, then flip it (R142). -/
def flipPixels : List (Fin 32 × Fin 64) → Framebuffer → Bool → Framebuffer × Bool
  | [], fb, collision => (fb, collision)
  | (r, c) :: ps, fb, collision => flipPixels ps (fb.flip r c) (collision || fb.pixel r c)

/-- DrawSprite(FB, x, y, base, height), given the height bytes at base (R142). -/
def drawSprite (fb : Framebuffer) (x y : Byte) (sprite : List Byte) : Framebuffer × Bool :=
  flipPixels (spritePixels sprite x.toNat y.toNat) fb false

/-! ### Keyboard (44_keyboard_timers.md R150) -/

/-- `is_down(k)`: a key number of 16 or more is fatal (R150, R174). -/
def isDown (s : State) (k : Nat) : Except Fatal Bool :=
  if h : k < 16 then .ok s.key[k] else .error ⟨.keyOob, k⟩

end Sys2Proof.Machine
end

