-- ==== Sys2Proof/Machine/Flags.lean ====
section
/-! DEFINITION. The flag values written to VF (10_state.md R11) and the write of flag and result in the order of the
table, the flag first (40_control_flow.md R81, 41_alu.md R113). Operands are converted to naturals and compared
exactly. -/

namespace Sys2Proof.Machine

/-- A flag as the byte stored in VF: 1 or 0. -/
def flagByte (b : Bool) : Byte := if b then 1 else 0

/-- The carry of `8xy4`: the exact sum exceeds 255 (R106). -/
def carryFlag (a b : Byte) : Byte := flagByte (decide (255 < a.toNat + b.toNat))

/-- The flag of `8xy5` and `8xy7`: the minuend is strictly greater (R107, R109). -/
def greaterFlag (minuend subtrahend : Byte) : Byte := flagByte (decide (subtrahend.toNat < minuend.toNat))

/-- The bit a right shift by one moves out: bit 0 (R108). -/
def lowBitFlag (a : Byte) : Byte := a &&& 1

/-- The bit a left shift by one moves out: bit 7 (R110). -/
def highBitFlag (a : Byte) : Byte := (a >>> 7) &&& 1

/-- VF <- flag, then V[x] <- result: with x = 15 the result stands (R81, R113). -/
def State.setFlagged (s : State) (x : Reg) (flag result : Byte) : State := (s.setV vf flag).setV x result

end Sys2Proof.Machine
end

