-- ==== Sys2Proof/Machine/Alu.lean ====
section
/-! DEFINITION. Register loads, arithmetic, logic, shifts and the random byte (41_alu.md R100 to R113). -/

namespace Sys2Proof.Machine

/-- LD Vx, kk (R100). -/
def execLdImm (x : Reg) (kk : Byte) (s : State) : Host.Outcome State Fault Refusal := .next (s.setV x kk)

/-- ADD Vx, kk: wraps, no flag (R101). -/
def execAddImm (x : Reg) (kk : Byte) (s : State) : Host.Outcome State Fault Refusal :=
  .next (s.setV x (s.getV x + kk))

/-- LD Vx, Vy (R102). -/
def execLdReg (x y : Reg) (s : State) : Host.Outcome State Fault Refusal := .next (s.setV x (s.getV y))

/-- OR Vx, Vy (R103). -/
def execOrReg (x y : Reg) (s : State) : Host.Outcome State Fault Refusal :=
  .next (s.setV x (s.getV x ||| s.getV y))

/-- AND Vx, Vy (R104). -/
def execAndReg (x y : Reg) (s : State) : Host.Outcome State Fault Refusal :=
  .next (s.setV x (s.getV x &&& s.getV y))

/-- XOR Vx, Vy (R105). -/
def execXorReg (x y : Reg) (s : State) : Host.Outcome State Fault Refusal :=
  .next (s.setV x (s.getV x ^^^ s.getV y))

/-- ADD Vx, Vy: VF <- carry, then V[x] <- sum mod 256 (R106). -/
def execAddReg (x y : Reg) (s : State) : Host.Outcome State Fault Refusal :=
  .next (s.setFlagged x (carryFlag (s.getV x) (s.getV y)) (s.getV x + s.getV y))

/-- SUB Vx, Vy: VF <- Vx > Vy, then V[x] <- (Vx - Vy) mod 256 (R107). -/
def execSubReg (x y : Reg) (s : State) : Host.Outcome State Fault Refusal :=
  .next (s.setFlagged x (greaterFlag (s.getV x) (s.getV y)) (s.getV x - s.getV y))

/-- SHR Vx: VF <- bit 0, then V[x] <- V[x] >> 1; Vy is not read (R108, R71). -/
def execShr (x _y : Reg) (s : State) : Host.Outcome State Fault Refusal :=
  .next (s.setFlagged x (lowBitFlag (s.getV x)) (s.getV x >>> 1))

/-- SUBN Vx, Vy: VF <- Vy > Vx, then V[x] <- (Vy - Vx) mod 256 (R109). -/
def execSubn (x y : Reg) (s : State) : Host.Outcome State Fault Refusal :=
  .next (s.setFlagged x (greaterFlag (s.getV y) (s.getV x)) (s.getV y - s.getV x))

/-- SHL Vx: VF <- bit 7, then V[x] <- (V[x] << 1) mod 256; Vy is not read (R110, R71). -/
def execShl (x _y : Reg) (s : State) : Host.Outcome State Fault Refusal :=
  .next (s.setFlagged x (highBitFlag (s.getV x)) (s.getV x <<< 1))

/-- RND Vx, kk: one fresh byte of the random source, under the mask (R111; free value, log entry 3). -/
def execRnd (x : Reg) (kk : Byte) (s : State) : Host.Outcome State Fault Refusal :=
  .next (s.drawn.setV x (Config.randomByte s.draws &&& kk))

end Sys2Proof.Machine
end

