-- ==== Sys2Proof/Machine/Operands.lean ====
section
/-! DEFINITION. The operand forms: immediates zero-extended (30_encoding.md R63), addresses formed from I without wrap
(20_memory.md R50, R126), the register block of `Fx55` and `Fx65`, the skip, and the parameters REGBLOCK_INCLUSIVE and
I_OVERFLOW (00_scope.md R5). -/

namespace Sys2Proof.Machine

/-- zext_16(nnn) (R63). -/
def addrWord (nnn : Addr) : Word := nnn.setWidth 16

/-- zext_16(V[x]). -/
def byteWord (b : Byte) : Word := b.setWidth 16

/-- I as an effective address: an unbounded natural (R50). -/
def State.base (s : State) : Nat := s.i.toNat

/-- I + V[x] under I_OVERFLOW = wrap16: reduced modulo 65536 (42_index_memory.md R121). -/
def indexSum (i : Word) (b : Byte) : Word := i + byteWord b

/-- The address of the glyph for a register's whole value: 5 * V[x] (42_index_memory.md R122). -/
def glyphAddr (b : Byte) : Word := byteWord b * 5

/-- REGBLOCK_INCLUSIVE: true, so that `Fx55` and `Fx65` move V0..Vx (00_scope.md R5). -/
def regBlockInclusive : Bool := true

/-- cnt(x) under a setting of REGBLOCK_INCLUSIVE (42_index_memory.md R124). -/
def blockCount (inclusive : Bool) (x : Reg) : Nat := if inclusive then x.val + 1 else x.val

/-- The general registers in order. -/
def allRegs : List Reg := [0, 1, 2, 3, 4, 5, 6, 7, 8, 9, 10, 11, 12, 13, 14, 15]

/-- The registers of the block of Vx (R124, R125). -/
def blockRegs (inclusive : Bool) (x : Reg) : List Reg := allRegs.take (blockCount inclusive x)

/-- The values of the given registers, in order. -/
def State.getVs (s : State) (xs : List Reg) : List Byte := xs.map s.getV

/-- V[i] <- b for each register with its byte, in order. -/
def State.setVs : State → List (Reg × Byte) → State
  | s, [] => s
  | s, (x, b) :: rest => State.setVs (s.setV x b) rest

/-- Skip the next instruction word where the condition holds: PC <- PC + 2 (40_control_flow.md R85). -/
def State.skipIf (s : State) (cond : Bool) : State := if cond then s.setPc (s.pc + 2) else s

end Sys2Proof.Machine
end

