-- ==== Sys2Proof/Machine/ControlFlow.lean ====
section
/-! DEFINITION. The control-flow instructions and the undefined word (40_control_flow.md R82 to R90). In each, `s.pc`
is already the address of the instruction plus 2 (R80). -/

namespace Sys2Proof.Machine

/-- RET: PC <- Pop() (R82). -/
def execRet (s : State) : Host.Outcome State Fault Refusal :=
  commit s (do
    let (target, t) ← pop s
    .ok (t.setPc target))

/-- JP nnn: PC <- nnn (R83). -/
def execJp (nnn : Addr) (s : State) : Host.Outcome State Fault Refusal := .next (s.setPc (addrWord nnn))

/-- CALL nnn: Push(PC), then PC <- nnn (R84). -/
def execCall (nnn : Addr) (s : State) : Host.Outcome State Fault Refusal :=
  commit s (do
    let t ← push s.pc s
    .ok (t.setPc (addrWord nnn)))

/-- SE Vx, kk (R85). -/
def execSeImm (x : Reg) (kk : Byte) (s : State) : Host.Outcome State Fault Refusal :=
  .next (s.skipIf (s.getV x == kk))

/-- SNE Vx, kk (R86). -/
def execSneImm (x : Reg) (kk : Byte) (s : State) : Host.Outcome State Fault Refusal :=
  .next (s.skipIf (s.getV x != kk))

/-- SE Vx, Vy (R87). -/
def execSeReg (x y : Reg) (s : State) : Host.Outcome State Fault Refusal :=
  .next (s.skipIf (s.getV x == s.getV y))

/-- SNE Vx, Vy (R88). -/
def execSneReg (x y : Reg) (s : State) : Host.Outcome State Fault Refusal :=
  .next (s.skipIf (s.getV x != s.getV y))

/-- JP V0, nnn: PC <- nnn + V0, not reduced modulo 4096 (R89). -/
def execJpV0 (nnn : Addr) (s : State) : Host.Outcome State Fault Refusal :=
  .next (s.setPc (addrWord nnn + byteWord (s.getV 0)))

/-- A word that matches no row: a no-op after the fetch's advance (R66, R90, R193). -/
def execUndefined (s : State) : Host.Outcome State Fault Refusal := .next s

end Sys2Proof.Machine
end

