-- ==== Sys2Proof/Machine/Display.lean ====
section
/-! DEFINITION. The display instructions (43_display.md R140, R141). -/

namespace Sys2Proof.Machine

/-- CLS (R140). -/
def execCls (s : State) : Host.Outcome State Fault Refusal := .next (s.setFb Framebuffer.clear)

/-- DRW Vx, Vy, n: all n sprite bytes are fetched first; then FB is drawn and VF <- collision (R141). -/
def execDrw (x y : Reg) (n : Nibble) (s : State) : Host.Outcome State Fault Refusal :=
  commit s (do
    let sprite ← memReadBlock s.mem s.base n.toNat
    let drawn := drawSprite s.fb (s.getV x) (s.getV y) sprite
    .ok ((s.setFb drawn.1).setV vf (flagByte drawn.2)))

end Sys2Proof.Machine
end

