-- ==== Sys2Proof/Machine/IndexMemory.lean ====
section
/-! DEFINITION. The instructions that write I, and the loads and stores (42_index_memory.md R120 to R126). -/

namespace Sys2Proof.Machine

/-- LD I, nnn (R120). -/
def execLdI (nnn : Addr) (s : State) : Host.Outcome State Fault Refusal := .next (s.setI (addrWord nnn))

/-- ADD I, Vx: no flag (R121). -/
def execAddI (x : Reg) (s : State) : Host.Outcome State Fault Refusal :=
  .next (s.setI (indexSum s.i (s.getV x)))

/-- LD F, Vx: I <- 5 * V[x] (R122). -/
def execLdFont (x : Reg) (s : State) : Host.Outcome State Fault Refusal := .next (s.setI (glyphAddr (s.getV x)))

/-- The decimal digits of a byte: hundreds, tens, units (R123). -/
def bcdDigits (b : Byte) : List Byte :=
  [BitVec.ofNat 8 (b.toNat / 100), BitVec.ofNat 8 (b.toNat / 10 % 10), BitVec.ofNat 8 (b.toNat % 10)]

/-- LD B, Vx: the three digits at I, I+1, I+2, all or none (R123). -/
def execLdBcd (x : Reg) (s : State) : Host.Outcome State Fault Refusal :=
  commit s (do
    let m ← memWriteBlock s.mem s.base (bcdDigits (s.getV x))
    .ok (s.setMem m))

/-- LD [I], Vx under a setting of REGBLOCK_INCLUSIVE; I is unchanged (R124). -/
def storeBlock (inclusive : Bool) (x : Reg) (s : State) : Host.Outcome State Fault Refusal :=
  commit s (do
    let m ← memWriteBlock s.mem s.base (s.getVs (blockRegs inclusive x))
    .ok (s.setMem m))

/-- LD Vx, [I] under a setting of REGBLOCK_INCLUSIVE; I is unchanged (R125). -/
def loadBlock (inclusive : Bool) (x : Reg) (s : State) : Host.Outcome State Fault Refusal :=
  commit s (do
    let bs ← memReadBlock s.mem s.base (blockCount inclusive x)
    .ok (s.setVs ((blockRegs inclusive x).zip bs)))

/-- LD [I], Vx (R124). -/
def execStoreRegs (x : Reg) (s : State) : Host.Outcome State Fault Refusal := storeBlock regBlockInclusive x s

/-- LD Vx, [I] (R125). -/
def execLoadRegs (x : Reg) (s : State) : Host.Outcome State Fault Refusal := loadBlock regBlockInclusive x s

end Sys2Proof.Machine
end

