-- ==== Sys2Proof/Machine/KeyTimer.lean ====
section
/-! DEFINITION. The keyboard and timer instructions (44_keyboard_timers.md R150 to R155). -/

namespace Sys2Proof.Machine

/-- SKP Vx: skip when the key is down; V[x] >= 16 is fatal (R150). -/
def execSkp (x : Reg) (s : State) : Host.Outcome State Fault Refusal :=
  commit s (do
    let down ← isDown s (s.getV x).toNat
    .ok (s.skipIf down))

/-- SKNP Vx: skip when the key is not down; V[x] >= 16 is fatal (R151). -/
def execSknp (x : Reg) (s : State) : Host.Outcome State Fault Refusal :=
  commit s (do
    let down ← isDown s (s.getV x).toNat
    .ok (s.skipIf (!down)))

/-- LD Vx, DT (R153). -/
def execLdVxDt (x : Reg) (s : State) : Host.Outcome State Fault Refusal := .next (s.setV x s.dt)

/-- LD Vx, K, the half the step performs: MODE <- WAIT_KEY(x) (R152). The other half is the host's key_event. -/
def execLdVxKey (x : Reg) (s : State) : Host.Outcome State Fault Refusal := .next (s.setMode (.waitKey x))

/-- LD DT, Vx (R154). -/
def execLdDtVx (x : Reg) (s : State) : Host.Outcome State Fault Refusal := .next { s with dt := s.getV x }

/-- LD ST, Vx (R155). -/
def execLdStVx (x : Reg) (s : State) : Host.Outcome State Fault Refusal := .next { s with st := s.getV x }

end Sys2Proof.Machine
end

