-- ==== Sys2Proof/Machine/HostOps.lean ====
section
/-! DEFINITION. The host's operations on the core (60_exceptions.md R179, R182 to R188; 70_reset_and_hazards.md R210,
R212). Each is atomic, and a fatal argument takes the fatal condition through the one `raiseFatal`. What an operation
returns to the host is left in `reply`; one that returns nothing leaves `reply` alone. -/

namespace Sys2Proof.Machine

/-- MODE is HALTED. -/
def State.isHalted (s : State) : Bool :=
  match s.mode with
  | .halted _ _ => true
  | _ => false

/-- `reset()`: the state of R23 in every piece of state, from any state and any MODE (R210). The model's own fields
are not the core's: the random source goes on, and so does the host's plan (log entries 3, 4, 5). -/
def hostReset (s : State) : State :=
  { State.reset with draws := s.draws, schedule := s.schedule, reply := s.reply }

/-- `load(buf)`: only in RUN; the fit test is strict; the image goes to 512 and PC to 512 (R212). -/
def hostLoad (buf : List Byte) (s : State) : State :=
  match s.mode with
  | .run =>
    if buf.length + Config.loadAddr < Config.memSize then
      { s with mem := s.mem.writeBytes Config.loadAddr buf, pc := 512 }
    else raiseFatal ⟨.loadTooLarge, buf.length⟩ s
  | _ => s

/-- A timer's decrement: it stops at 0 (R182, R183). -/
def countDown (t : Byte) : Byte := if t = 0 then 0 else t - 1

/-- `tick()`: both timers, in RUN only (R182, R187). -/
def hostTick (s : State) : State :=
  match s.mode with
  | .run => { s with dt := countDown s.dt, st := countDown s.st }
  | _ => s

/-- KEY[k] <- down, unless the core is halted; k >= 16 is fatal (R185). -/
def setKey (k : Nat) (down : Bool) (s : State) : State :=
  if s.isHalted then s
  else if h : k < 16 then { s with key := s.key.set k down }
  else raiseFatal ⟨.keyOob, k⟩ s

/-- `key_down(k)` (R185). -/
def hostKeyDown (k : Nat) (s : State) : State := setKey k true s

/-- `key_up(k)` (R185). -/
def hostKeyUp (k : Nat) (s : State) : State := setKey k false s

/-- `key_event(k)`: ends the wait of `Fx0A`; dropped in RUN; KEY is not changed (R186). -/
def hostKeyEvent (k : Nat) (s : State) : State :=
  if s.isHalted then s
  else if k < 16 then
    match s.mode with
    | .waitKey x => (s.setV x (BitVec.ofNat 8 k)).setMode .run
    | _ => s
  else raiseFatal ⟨.keyOob, k⟩ s

/-- `is_set(x, y)`: FB[y][x], x the column and y the row, in any mode; out of range it is fatal, or false in a halted
core (R188). -/
def hostIsSet (x y : Nat) (s : State) : State :=
  if h : x < 64 ∧ y < 32 then { s with reply := some (.pixel (s.fb.pixel ⟨y, h.2⟩ ⟨x, h.1⟩)) }
  else if s.isHalted then { s with reply := some (.pixel false) }
  else raiseFatal ⟨.screenOob, y * 256 + x⟩ s

/-- `sound_read()`: returns ST in any mode (R184). -/
def hostSoundRead (s : State) : State := { s with reply := some (.sound s.st) }

/-- `sound_consume()`: returns ST and clears it, unless the core is halted (R184). -/
def hostSoundConsume (s : State) : State :=
  if s.isHalted then { s with reply := some (.sound s.st) }
  else { s with reply := some (.sound s.st), st := 0 }

end Sys2Proof.Machine
end

