-- ==== Sys2Proof/Machine/Cycle.lean ====
section
/-! DEFINITION. The step of the core (40_control_flow.md R80) and the operations of the interface (00_scope.md R6). -/

namespace Sys2Proof.Machine

/-- The fetch: the big-endian word at PC (R43, R80). -/
def fetch (s : State) : Except Fatal Word := memRead2 s.mem s.pc.toNat

/-- PC <- PC + 2, before execution (R80). -/
def State.advance (s : State) : State := s.setPc (s.pc + 2)

/-- Run the word that was fetched, on the state whose PC has been advanced (R80, R90). -/
def runWord (op : Word) (s : State) : Host.Outcome State Fault Refusal :=
  match decodeWord op with
  | .ok i => exec i s
  | .error _ => execUndefined s

/-- `step()`: nothing unless MODE is RUN; a fatal fetch leaves PC where it was (R80, R179, R187). -/
def coreStep (s : State) : Host.Outcome State Fault Refusal :=
  match s.mode with
  | .run =>
    match fetch s with
    | .ok op => runWord op s.advance
    | .error f => .next (raiseFatal f s)
  | _ => .next s

/-- One operation of the core's interface (R6). -/
def perform (op : Operation) (s : State) : Host.Outcome State Fault Refusal :=
  match op with
  | .step => coreStep s
  | .reset => .next (hostReset s)
  | .load buf => .next (hostLoad buf s)
  | .tick => .next (hostTick s)
  | .keyDown k => .next (hostKeyDown k s)
  | .keyUp k => .next (hostKeyUp k s)
  | .keyEvent k => .next (hostKeyEvent k s)
  | .isSet x y => .next (hostIsSet x y s)
  | .soundRead => .next (hostSoundRead s)
  | .soundConsume => .next (hostSoundConsume s)

/-- The host's load of a program that is one word, on a running core with nothing else scheduled (R212; log entry 7). -/
def placeWord (op : Word) (s : State) : State :=
  hostLoad [highByte op, lowByte op] { s with mode := .run, schedule := [] }

end Sys2Proof.Machine
end

