-- ==== Sys2Proof/Machine/Step.lean ====
section
/-! DEFINITION. One step of the whole machine: the next operation of the schedule, or a step of the core where none is
scheduled (00_scope.md R4; log entry 4). -/

namespace Sys2Proof.Machine

/-- The next atomic operation, whichever agent performs it. -/
def step (s : State) : Host.Outcome State Fault Refusal :=
  match s.schedule with
  | [] => coreStep s
  | op :: rest => perform op { s with schedule := rest }

/-- The state in which the very next step fetches and runs the instruction whose bits are w: its word loaded as a
program at 512, where a loaded program starts (70_reset_and_hazards.md R212; log entry 7). -/
def State.withFetchWord (s : State) (nbits w : Nat) : State := placeWord (BitVec.ofNat 16 (w % 2 ^ nbits)) s

end Sys2Proof.Machine
end

