-- ==== Sys2Proof/Safety.lean ====
section
/-! DEFINITION. What counts as a safe run, the invariant of the machine, and the terms the statements use: which
registers an instruction may write, which pixels a sprite covers, and frames. -/

namespace Sys2Proof.Machine

/-- A state is safe while no fatal condition has been taken; a halted state is never a successful end
(60_exceptions.md R179, 70_reset_and_hazards.md R214). -/
def State.Safe (s : State) : Prop := s.isHalted = false

/-- The bounds of 10_state.md R13, R24 that the widths of the fields do not give: memory is in its canonical form, PC is
at most 0x10FE, and every return address is at most 4096 (40_control_flow.md R84). -/
abbrev State.Inv (s : State) : Prop :=
  s.mem.wf ∧ s.pc.toNat ≤ 0x10FE ∧ ∀ k : Fin 16, s.stack[k].toNat ≤ 4096

/-- From s to t only V[x] may have changed. -/
def OnlyReg (s t : State) (x : Reg) : Prop := (∀ r, r ≠ x → t.getV r = s.getV r) ∧ t = { s with v := t.v }

/-- From s to t only V[x] and VF may have changed. -/
def OnlyRegAndFlag (s t : State) (x : Reg) : Prop :=
  (∀ r, r ≠ x → r ≠ vf → t.getV r = s.getV r) ∧ t = { s with v := t.v }

/-- From s to t only PC may have changed. -/
def OnlyPc (s t : State) : Prop := t = { s with pc := t.pc }

/-- The V registers an instruction may write: its destination, and VF where it writes VF as a flag (10_state.md R11,
R26). The key of `Fx0A` is written by `key_event`, not by the instruction. -/
def dests : Instr → List Reg
  | .cls | .ret | .jp _ | .call _ | .seImm _ _ | .sneImm _ _ | .seReg _ _ | .sneReg _ _ => []
  | .ldImm x _ | .addImm x _ | .ldReg x _ | .orReg x _ | .andReg x _ | .xorReg x _ => [x]
  | .addReg x _ | .subReg x _ | .shr x _ | .subn x _ | .shl x _ => [x, vf]
  | .ldI _ | .jpV0 _ => []
  | .rnd x _ => [x]
  | .drw _ _ _ => [vf]
  | .skp _ | .sknp _ => []
  | .ldVxDt x => [x]
  | .ldVxKey _ | .ldDtVx _ | .ldStVx _ | .addI _ | .ldFont _ | .ldBcd _ | .storeRegs _ => []
  | .loadRegs x => allRegs.filter (fun r => r ≤ x)

/-- The n-row sprite at address base, drawn at column x and row y, has a 1 bit over the pixel at row r, column c
(43_display.md R142). -/
def SpriteCovers (m : Memory) (base x y n : Nat) (r : Fin 32) (c : Fin 64) : Prop :=
  ∃ row col, row < n ∧ col < 8 ∧ (m.read (base + row)).getLsbD (7 - col) = true ∧
    r.val = (y + row) % 32 ∧ c.val = (x + col) % 64

/-- The word the two bytes at PC spell, high byte first (20_memory.md R43, R44). -/
def State.wordAtPc (s : State) : Word := wordOfBytes (s.mem.read s.pc.toNat) (s.mem.read (s.pc.toNat + 1))

end Sys2Proof.Machine
end

