-- ==== Sys2Proof/Certificates/Slice0/Obligations.lean ====
section
/-! DEFINITION. The statements of this row. Every docstring cites the rules or sections of spec/ it comes from.

In a statement about `exec`, s is the state the execute phase finds: PC already holds the instruction's address plus 2
(40_control_flow.md R80), and `t = { s with … }` says that every field not named is unchanged, memory and the
framebuffer whole. A statement that rests on a decision the spec marks as its own (D<n> of 92_eei_decisions.md) or on an
entry of the assumption log says so. -/

open Sys2Proof Sys2Proof.Machine

/-! ### Encoding -/

/-- 30_encoding.md sections 1 and 2: decoding the word, or the two bytes, of any instruction gives it back. -/
def Obligations.DecodeOfEncode : Prop :=
  ∀ (i : Instr) (rest : List Byte),
    decodeWord (encode i) = .ok i ∧ decode (encodeBytes i ++ rest) = .ok (i, rest)

/-- 30_encoding.md section 2, with the spec's decision D7 (patterns exact): a word that decodes is the word of the
instruction it decodes to. Under a laxer decode it could fail. -/
def Obligations.EncodeOfDecode : Prop :=
  ∀ (op : Word) (i : Instr), decodeWord op = .ok i → encode i = op

/-- 30_encoding.md section 2, with the spec's decision D7 (patterns exact): a word decodes to an instruction of a row
whose pattern it has, it decodes exactly when it has some row's pattern, and otherwise it is rejected by name. -/
def Obligations.DecodeFollowsTheTable : Prop :=
  ∀ op : Word,
    (∀ i, decodeWord op = .ok i → i.row ∈ opcodeTable ∧ i.row.accepts op = true) ∧
    ((∃ i, decodeWord op = .ok i) ↔ wordWellFormed op = true) ∧
    (wordWellFormed op = false → decodeWord op = .error (.undefinedWord op))

/-- 30_encoding.md section 2: no two patterns of the opcode map overlap. -/
def Obligations.RowsDoNotOverlap : Prop :=
  ∀ (op : Word), ∀ r ∈ opcodeTable, ∀ q ∈ opcodeTable, r.accepts op = true → q.accepts op = true → r = q

/-- 30_encoding.md section 3, with the spec's decision D7: the undefined words are exactly those of the six groups. -/
def Obligations.UndefinedWordsAreTheListed : Prop :=
  ∀ op : Word, wordWellFormed op = false ↔
    (fieldG op = 0x0 ∧ op ≠ 0x00E0 ∧ op ≠ 0x00EE) ∨
    ((fieldG op = 0x5 ∨ fieldG op = 0x9) ∧ fieldN op ≠ 0) ∨
    (fieldG op = 0x8 ∧ fieldN op ∈ [0x8, 0x9, 0xA, 0xB, 0xC, 0xD, 0xF]) ∨
    (fieldG op = 0xE ∧ fieldKK op ≠ 0x9E ∧ fieldKK op ≠ 0xA1) ∨
    (fieldG op = 0xF ∧ fieldKK op ∉ [0x07, 0x0A, 0x15, 0x18, 0x1E, 0x29, 0x33, 0x55, 0x65])

/-- 95_test_vectors.md: one word of each family, written out from the patterns, decodes to what it stands for; and the
word 0x5121, which only the spec's decision D7 (patterns exact) makes undefined, is rejected by name. -/
def Obligations.SampleWordsDecode : Prop :=
  decodeWord 0x1234 = .ok (.jp 0x234) ∧ decodeWord 0x6A3E = .ok (.ldImm 10 0x3E) ∧
  decodeWord 0x8125 = .ok (.subReg 1 2) ∧ decodeWord 0xF255 = .ok (.storeRegs 2) ∧
  decodeWord 0xD012 = .ok (.drw 0 1 2) ∧ decodeWord 0xE49E = .ok (.skp 4) ∧
  decodeWord 0xF215 = .ok (.ldDtVx 2) ∧ decodeWord 0x5121 = .error (.undefinedWord 0x5121)

/-! ### The step -/

/-- 40_control_flow.md section 1: with the core in RUN and its turn come (nothing scheduled, or a step scheduled
first), a step whose word at PC decodes to i is exec of i on the state with PC advanced by 2. The fetch inside the step
is the spec's decision D2, the schedule the model's own (log entry 4). -/
def Obligations.StepRunsDecodedInstruction : Prop :=
  ∀ (s : State) (i : Instr), s.mode = .run → s.pc.toNat + 1 < 4096 → decodeWord s.wordAtPc = .ok i →
    (s.schedule = [] → step s = exec i { s with pc := s.pc + 2 }) ∧
    (∀ rest, s.schedule = .step :: rest → step s = exec i { s with pc := s.pc + 2, schedule := rest })

/-- 40_control_flow.md section 5 and 60_exceptions.md section 1: an undefined word is no exception; nothing changes but
PC, advanced by 2 in the fetch. Which words are undefined is the spec's decision D7; the schedule, which loses the step
taken, is the model's own (log entry 4). -/
def Obligations.UndefinedWordIsNoOp : Prop :=
  ∀ (s : State), s.mode = .run → s.pc.toNat + 1 < 4096 → wordWellFormed s.wordAtPc = false →
    (s.schedule = [] → step s = .next { s with pc := s.pc + 2 }) ∧
    (∀ rest, s.schedule = .step :: rest → step s = .next { s with pc := s.pc + 2, schedule := rest })

/-- 40_control_flow.md section 1 and 60_exceptions.md section 1, with the spec's decisions D12, D13: a fetch with
PC + 1 >= 4096 halts with MEM_OOB and PC recorded, PC not advanced, and nothing else changed. The halt is a next state
(log entry 1); the schedule, which loses the step taken, is the model's own (log entry 4). -/
def Obligations.FetchOutOfRangeHalts : Prop :=
  ∀ (s : State), s.mode = .run → 4096 ≤ s.pc.toNat + 1 →
    (s.schedule = [] → step s = .next { s with mode := .halted .memOob s.pc.toNat }) ∧
    (∀ rest, s.schedule = .step :: rest →
      step s = .next { s with mode := .halted .memOob s.pc.toNat, schedule := rest })

/-- 70_reset_and_hazards.md section 6 (derived there): a step of the machine always answers a next state. A step that
meets a fatal condition answers one too, in MODE = HALTED (log entry 1, on the spec's decision D12). -/
def Obligations.StepAlwaysAnswers : Prop := ∀ s : State, ∃ t, step s = .next t

/-- 60_exceptions.md section 1, with the spec's decisions D12 and D13: a step the core performs ends in a fatal
condition only with none of its writes applied; PC is advanced unless the fetch itself failed, and MODE differs. The
halt is a next state (log entry 1); the schedule, which loses the step taken, is the model's own (log entry 4). -/
def Obligations.FatalIsAllOrNothing : Prop :=
  ∀ (s t : State) (cause : FatalCause) (info : Nat), s.mode = .run → step s = .next t →
    t.mode = .halted cause info →
    (s.schedule = [] →
      (4096 ≤ s.pc.toNat + 1 → t = { s with mode := .halted cause info }) ∧
      (s.pc.toNat + 1 < 4096 → t = { s with pc := s.pc + 2, mode := .halted cause info })) ∧
    (∀ rest, s.schedule = .step :: rest →
      (4096 ≤ s.pc.toNat + 1 → t = { s with mode := .halted cause info, schedule := rest }) ∧
      (s.pc.toNat + 1 < 4096 → t = { s with pc := s.pc + 2, mode := .halted cause info, schedule := rest }))

/-- 60_exceptions.md section 1 (derived there; codes and info are the spec's decision D12, the key range D6, the block
D5, and n = 0 D9; the halt is a next state, log entry 1): which instruction raises which cause, under which condition,
and what it records. -/
def Obligations.FatalCausesByInstruction : Prop :=
  ∀ (i : Instr) (s t : State) (cause : FatalCause) (info : Nat), s.mode = .run →
    exec i s = .next t → t.mode = .halted cause info →
    ((∃ nnn, i = .call nnn) ∧ cause = .stackOverflow ∧ info = 16 ∧ s.sp.val = 16) ∨
    (i = .ret ∧ cause = .stackUnderflow ∧ info = 0 ∧ s.sp.val = 0) ∨
    (∃ x, (i = .skp x ∨ i = .sknp x) ∧ cause = .keyOob ∧ info = (s.getV x).toNat ∧ 16 ≤ info) ∨
    (((∃ x, i = .ldBcd x ∧ 4096 ≤ s.i.toNat + 2) ∨
      (∃ x, (i = .storeRegs x ∨ i = .loadRegs x) ∧ 4096 ≤ s.i.toNat + x.val) ∨
      (∃ x y n, i = .drw x y n ∧ 0 < n.toNat ∧ 4096 < s.i.toNat + n.toNat)) ∧
      cause = .memOob ∧ info = max s.i.toNat 4096)

/-! ### Invariants and reset -/

/-- 10_state.md sections 3 and 9 and 40_control_flow.md section 2 (bounds derived there): every step, whichever agent
makes it, keeps the bounds of PC and the return addresses and the canonical form of memory. That form is the model's
(log entry 6); a reset among the steps leaves the values of the spec's decisions D14 and D15. -/
def Obligations.StepKeepsInv : Prop := ∀ s t : State, s.Inv → step s = .next t → t.Inv

/-- 10_state.md section 9: the invariant holds at reset. The stack's reset value is the spec's decision D14, the
canonical form of memory the model's (log entry 6). -/
def Obligations.ResetHasInv : Prop := State.reset.Inv

/-- 10_state.md section 8 (pixels, keys, slots and MODE are the spec's decision D14): what reset leaves. The font bytes
are the free value of log entry 2; the model's own fields are not mentioned. -/
def Obligations.ResetValues : Prop :=
  (∀ x, State.reset.getV x = 0) ∧ State.reset.i = 0 ∧ State.reset.pc = 0 ∧ State.reset.sp = 0 ∧
  (∀ k : Fin 16, State.reset.stack[k] = 0) ∧ State.reset.dt = 0 ∧ State.reset.st = 0 ∧
  (∀ a : Fin 80, State.reset.mem.read a.val = Config.font a) ∧
  (∀ a, 80 ≤ a → State.reset.mem.read a = 0) ∧
  (∀ r c, State.reset.fb.pixel r c = false) ∧ (∀ k : Fin 16, State.reset.key[k] = false) ∧
  State.reset.mode = .run

/-- 70_reset_and_hazards.md section 1, with the spec's decisions D14, D15: reset, from any state and any MODE, leaves
every piece of the core's state at its reset value; the random source and the host's plan are not the core's (log
entries 3, 4). -/
def Obligations.ResetFromAnyState : Prop :=
  ∀ (s : State) (rest : List Operation), s.schedule = .reset :: rest →
    ∃ t, step s = .next t ∧ t.v = State.reset.v ∧ t.i = 0 ∧ t.pc = 0 ∧ t.sp = 0 ∧ t.stack = State.reset.stack ∧
      t.dt = 0 ∧ t.st = 0 ∧ (∀ a, t.mem.read a = State.reset.mem.read a) ∧ t.fb = State.reset.fb ∧
      t.key = State.reset.key ∧ t.mode = .run ∧ t.draws = s.draws ∧ t.schedule = rest

/-! ### Control flow -/

/-- R83, R89: JP sets PC to nnn, JP V0 to nnn + V0, not reduced; nothing else changes. -/
def Obligations.JumpsSetPc : Prop :=
  ∀ (s : State) (nnn : Addr),
    (∃ t, exec (.jp nnn) s = .next t ∧ t.pc.toNat = nnn.toNat ∧ OnlyPc s t) ∧
    (∃ t, exec (.jpV0 nnn) s = .next t ∧ t.pc.toNat = nnn.toNat + (s.getV 0).toNat ∧ OnlyPc s t)

/-- 40_control_flow.md section 2: with SP below 16 a call stores PC, the return address, in the slot at SP, raises SP by
one, and sets PC to nnn; nothing else changes. -/
def Obligations.CallPushesReturnAddress : Prop :=
  ∀ (s : State) (nnn : Addr) (_ : s.sp.val < 16),
    ∃ t, exec (.call nnn) s = .next t ∧ t.pc.toNat = nnn.toNat ∧ t.sp.val = s.sp.val + 1 ∧
      t.stack[s.sp.val] = s.pc ∧ (∀ k : Fin 16, k.val ≠ s.sp.val → t.stack[k] = s.stack[k]) ∧
      t = { s with pc := t.pc, sp := t.sp, stack := t.stack }

/-- 40_control_flow.md section 2: with SP above 0 a return lowers SP by one and sets PC to the slot at the new SP, which
keeps its value; nothing else changes. -/
def Obligations.ReturnPopsAddress : Prop :=
  ∀ (s : State), 0 < s.sp.val →
    ∃ t, exec .ret s = .next t ∧ t.sp.val + 1 = s.sp.val ∧ (∀ k : Fin 16, k.val = t.sp.val → t.pc = s.stack[k]) ∧
      t = { s with pc := t.pc, sp := t.sp }

/-- 40_control_flow.md section 2: a call and then a return, wherever the subroutine has moved PC, resume after the call
with the stack pointer as it was; only the slot the call used may differ. -/
def Obligations.ReturnUndoesCall : Prop :=
  ∀ (s : State) (nnn : Addr) (p : Word), s.sp.val < 16 →
    ∃ t u, exec (.call nnn) s = .next t ∧ exec .ret { t with pc := p } = .next u ∧
      u.pc = s.pc ∧ u.sp = s.sp ∧ u = { s with stack := u.stack } ∧
      (∀ k : Fin 16, k.val ≠ s.sp.val → u.stack[k] = s.stack[k])

/-- 60_exceptions.md section 1, with the spec's decision D12: a call on the full stack and a return on the empty one
halt the core, with SP and the stack as they were. The halt is a next state (log entry 1). -/
def Obligations.StackFaultsHalt : Prop :=
  ∀ (s : State),
    (∀ nnn, s.sp.val = 16 → exec (.call nnn) s = .next { s with mode := .halted .stackOverflow 16 }) ∧
    (s.sp.val = 0 → exec .ret s = .next { s with mode := .halted .stackUnderflow 0 })

/-- R85, R86: the skips on an immediate add 2 to PC exactly when the condition holds; nothing else changes. -/
def Obligations.SkipsOnImmediate : Prop :=
  ∀ (s : State) (x : Reg) (kk : Byte),
    (∃ t, exec (.seImm x kk) s = .next t ∧ (s.getV x = kk → t.pc = s.pc + 2) ∧ (s.getV x ≠ kk → t.pc = s.pc) ∧
      OnlyPc s t) ∧
    (∃ t, exec (.sneImm x kk) s = .next t ∧ (s.getV x ≠ kk → t.pc = s.pc + 2) ∧ (s.getV x = kk → t.pc = s.pc) ∧
      OnlyPc s t)

/-- R87, R88: the skips on two registers add 2 to PC exactly when the condition holds; nothing else changes. -/
def Obligations.SkipsOnRegisters : Prop :=
  ∀ (s : State) (x y : Reg),
    (∃ t, exec (.seReg x y) s = .next t ∧ (s.getV x = s.getV y → t.pc = s.pc + 2) ∧
      (s.getV x ≠ s.getV y → t.pc = s.pc) ∧ OnlyPc s t) ∧
    (∃ t, exec (.sneReg x y) s = .next t ∧ (s.getV x ≠ s.getV y → t.pc = s.pc + 2) ∧
      (s.getV x = s.getV y → t.pc = s.pc) ∧ OnlyPc s t)

/-- 70_reset_and_hazards.md section 4: a jump to its own address leaves the whole state unchanged, step after step; of
the model's own schedule the step taken is gone (log entry 4). -/
def Obligations.JumpToSelfIdles : Prop :=
  ∀ (s : State) (nnn : Addr), s.mode = .run → s.pc.toNat + 1 < 4096 → s.pc.toNat = nnn.toNat →
    s.wordAtPc = encode (.jp nnn) →
    (s.schedule = [] → step s = .next s) ∧
    (∀ rest, s.schedule = .step :: rest → step s = .next { s with schedule := rest })

/-! ### Register loads, arithmetic, logic, shifts, random -/

/-- R100, R102, R153: the loads write the one register named, with kk, Vy or DT; nothing else changes. -/
def Obligations.LoadsWriteOneRegister : Prop :=
  ∀ (s : State) (x y : Reg) (kk : Byte),
    (∃ t, exec (.ldImm x kk) s = .next t ∧ t.getV x = kk ∧ OnlyReg s t x) ∧
    (∃ t, exec (.ldReg x y) s = .next t ∧ t.getV x = s.getV y ∧ OnlyReg s t x) ∧
    (∃ t, exec (.ldVxDt x) s = .next t ∧ t.getV x = s.dt ∧ OnlyReg s t x)

/-- R101: the sum with an immediate is reduced modulo 256, and no flag is touched. -/
def Obligations.AddImmediateWraps : Prop :=
  ∀ (s : State) (x : Reg) (kk : Byte),
    ∃ t, exec (.addImm x kk) s = .next t ∧ (t.getV x).toNat = ((s.getV x).toNat + kk.toNat) % 256 ∧ OnlyReg s t x

/-- R103, R104, R105: OR, AND and XOR bit by bit; VF is untouched unless it is Vx. -/
def Obligations.LogicBitByBit : Prop :=
  ∀ (s : State) (x y : Reg),
    (∃ t, exec (.orReg x y) s = .next t ∧ OnlyReg s t x ∧
      ∀ k, (t.getV x).getLsbD k = ((s.getV x).getLsbD k || (s.getV y).getLsbD k)) ∧
    (∃ t, exec (.andReg x y) s = .next t ∧ OnlyReg s t x ∧
      ∀ k, (t.getV x).getLsbD k = ((s.getV x).getLsbD k && (s.getV y).getLsbD k)) ∧
    (∃ t, exec (.xorReg x y) s = .next t ∧ OnlyReg s t x ∧
      ∀ k, (t.getV x).getLsbD k = ((s.getV x).getLsbD k ^^ (s.getV y).getLsbD k))

/-- R106: the sum modulo 256 in Vx for every x, and in VF, where x is not 15, the carry: 1 if the exact sum exceeds 255,
else 0. -/
def Obligations.AddSetsCarry : Prop :=
  ∀ (s : State) (x y : Reg),
    ∃ t, exec (.addReg x y) s = .next t ∧
      (t.getV x).toNat = ((s.getV x).toNat + (s.getV y).toNat) % 256 ∧
      (x ≠ vf → (t.getV vf).toNat = if 255 < (s.getV x).toNat + (s.getV y).toNat then 1 else 0) ∧
      OnlyRegAndFlag s t x

/-- 41_alu.md section 3: the difference modulo 256 in Vx, and in VF, where x is not 15, 1 exactly when Vx > Vy. The
cases x = 15 and y = 15 rest on the spec's decision D3. -/
def Obligations.SubSetsStrictGreater : Prop :=
  ∀ (s : State) (x y : Reg),
    ∃ t, exec (.subReg x y) s = .next t ∧
      ((t.getV x).toNat : Int) = ((s.getV x).toNat - (s.getV y).toNat : Int) % 256 ∧
      (x ≠ vf → (t.getV vf).toNat = if (s.getV y).toNat < (s.getV x).toNat then 1 else 0) ∧
      OnlyRegAndFlag s t x

/-- 41_alu.md section 3: the reverse difference modulo 256 in Vx, and in VF, where x is not 15, 1 exactly when Vy > Vx.
The cases x = 15 and y = 15 rest on the spec's decision D3. -/
def Obligations.SubnSetsStrictGreater : Prop :=
  ∀ (s : State) (x y : Reg),
    ∃ t, exec (.subn x y) s = .next t ∧
      ((t.getV x).toNat : Int) = ((s.getV y).toNat - (s.getV x).toNat : Int) % 256 ∧
      (x ≠ vf → (t.getV vf).toNat = if (s.getV x).toNat < (s.getV y).toNat then 1 else 0) ∧
      OnlyRegAndFlag s t x

/-- 41_alu.md section 3: Vx halved, and in VF, where x is not 15, its old bit 0; y is ignored. The case x = 15 rests on
the spec's decision D3. -/
def Obligations.ShrMovesLowBitToFlag : Prop :=
  ∀ (s : State) (x y : Reg),
    ∃ t, exec (.shr x y) s = .next t ∧ (t.getV x).toNat = (s.getV x).toNat / 2 ∧
      (x ≠ vf → (t.getV vf).toNat = (s.getV x).toNat % 2) ∧ OnlyRegAndFlag s t x

/-- 41_alu.md section 3: Vx doubled modulo 256, and in VF, where x is not 15, its old bit 7; y is ignored. The case
x = 15 rests on the spec's decision D3. -/
def Obligations.ShlMovesHighBitToFlag : Prop :=
  ∀ (s : State) (x y : Reg),
    ∃ t, exec (.shl x y) s = .next t ∧ (t.getV x).toNat = (2 * (s.getV x).toNat) % 256 ∧
      (x ≠ vf → (t.getV vf).toNat = (s.getV x).toNat / 128) ∧ OnlyRegAndFlag s t x

/-- 41_alu.md section 5, which the spec derives from its decision D3: with x = 15 the result, not the flag, is left in
VF, whatever y; with y = 15 the old VF is the operand and VF receives the flag. -/
def Obligations.FlagRegisterAsOperand : Prop :=
  ∀ (s : State) (z : Reg),
    (∃ t, exec (.addReg vf z) s = .next t ∧ OnlyReg s t vf ∧
      (t.getV vf).toNat = ((s.getV vf).toNat + (s.getV z).toNat) % 256) ∧
    (∃ t, exec (.subReg vf z) s = .next t ∧ OnlyReg s t vf ∧
      ((t.getV vf).toNat : Int) = ((s.getV vf).toNat - (s.getV z).toNat : Int) % 256) ∧
    (∃ t, exec (.shr vf z) s = .next t ∧ OnlyReg s t vf ∧ (t.getV vf).toNat = (s.getV vf).toNat / 2) ∧
    (∃ t, exec (.subn vf z) s = .next t ∧ OnlyReg s t vf ∧
      ((t.getV vf).toNat : Int) = ((s.getV z).toNat - (s.getV vf).toNat : Int) % 256) ∧
    (∃ t, exec (.shl vf z) s = .next t ∧ OnlyReg s t vf ∧ (t.getV vf).toNat = (2 * (s.getV vf).toNat) % 256) ∧
    (z ≠ vf →
      (∃ t, exec (.addReg z vf) s = .next t ∧ OnlyRegAndFlag s t z ∧
        (t.getV z).toNat = ((s.getV z).toNat + (s.getV vf).toNat) % 256 ∧
        (t.getV vf).toNat = if 255 < (s.getV z).toNat + (s.getV vf).toNat then 1 else 0) ∧
      (∃ t, exec (.subReg z vf) s = .next t ∧ OnlyRegAndFlag s t z ∧
        ((t.getV z).toNat : Int) = ((s.getV z).toNat - (s.getV vf).toNat : Int) % 256 ∧
        (t.getV vf).toNat = if (s.getV vf).toNat < (s.getV z).toNat then 1 else 0) ∧
      (∃ t, exec (.subn z vf) s = .next t ∧ OnlyRegAndFlag s t z ∧
        ((t.getV z).toNat : Int) = ((s.getV vf).toNat - (s.getV z).toNat : Int) % 256 ∧
        (t.getV vf).toNat = if (s.getV z).toNat < (s.getV vf).toNat then 1 else 0))

/-- 41_alu.md section 4, with the spec's decision D18: whatever the random source supplies, Vx receives it under the mask
kk, so that bits of Vx where kk has a 0 are 0; one byte is drawn (log entry 3). -/
def Obligations.RandomUnderMask : Prop :=
  ∀ (s : State) (x : Reg) (kk : Byte),
    ∃ t, exec (.rnd x kk) s = .next t ∧ t.getV x = Config.randomByte s.draws &&& kk ∧
      (∀ k, kk.getLsbD k = false → (t.getV x).getLsbD k = false) ∧ (∀ r, r ≠ x → t.getV r = s.getV r) ∧
      t.draws = s.draws + 1 ∧ t = { s with v := t.v, draws := t.draws }

/-! ### Index register and memory -/

/-- R120, R122: LD I sets I to nnn, LD F to five times the whole of Vx; nothing else changes. -/
def Obligations.IndexLoads : Prop :=
  ∀ (s : State) (x : Reg) (nnn : Addr),
    (∃ t, exec (.ldI nnn) s = .next t ∧ t.i.toNat = nnn.toNat ∧ t = { s with i := t.i }) ∧
    (∃ t, exec (.ldFont x) s = .next t ∧ t.i.toNat = (s.getV x).toNat * 5 ∧ t = { s with i := t.i })

/-- 42_index_memory.md section 1; the wrap is the spec's decision D10: I + Vx modulo 65536, VF untouched. -/
def Obligations.AddIndexWraps : Prop :=
  ∀ (s : State) (x : Reg),
    ∃ t, exec (.addI x) s = .next t ∧ t.i.toNat = (s.i.toNat + (s.getV x).toNat) % 65536 ∧ t = { s with i := t.i }

/-- 42_index_memory.md section 2: with I, I+1, I+2 inside memory, the three decimal digits of Vx are stored there; every
other byte reads as before and nothing else changes. -/
def Obligations.BcdStoresDigits : Prop :=
  ∀ (s : State) (x : Reg), s.i.toNat + 2 < 4096 →
    ∃ t, exec (.ldBcd x) s = .next t ∧
      (t.mem.read s.i.toNat).toNat = (s.getV x).toNat / 100 ∧
      (t.mem.read (s.i.toNat + 1)).toNat = (s.getV x).toNat / 10 % 10 ∧
      (t.mem.read (s.i.toNat + 2)).toNat = (s.getV x).toNat % 10 ∧
      (∀ a, ¬ (s.i.toNat ≤ a ∧ a ≤ s.i.toNat + 2) → t.mem.read a = s.mem.read a) ∧ t = { s with mem := t.mem }

/-- 42_index_memory.md section 2, with the spec's decision D5 (inclusive): with I .. I+x inside memory, V0..Vx are stored
there; every other byte reads as before and nothing else changes, I included. -/
def Obligations.StoreRegsStoresBlock : Prop :=
  ∀ (s : State) (x : Reg), s.i.toNat + x.val < 4096 →
    ∃ t, exec (.storeRegs x) s = .next t ∧
      (∀ r : Reg, r ≤ x → t.mem.read (s.i.toNat + r.val) = s.getV r) ∧
      (∀ a, ¬ (s.i.toNat ≤ a ∧ a ≤ s.i.toNat + x.val) → t.mem.read a = s.mem.read a) ∧ t = { s with mem := t.mem }

/-- 42_index_memory.md section 2, with the spec's decision D5 (inclusive): with I .. I+x inside memory, V0..Vx receive
the bytes there; every other register keeps its value and nothing else changes, I included. -/
def Obligations.LoadRegsLoadsBlock : Prop :=
  ∀ (s : State) (x : Reg), s.i.toNat + x.val < 4096 →
    ∃ t, exec (.loadRegs x) s = .next t ∧ (∀ r : Reg, r ≤ x → t.getV r = s.mem.read (s.i.toNat + r.val)) ∧
      (∀ r : Reg, x < r → t.getV r = s.getV r) ∧ t = { s with v := t.v }

/-- 42_index_memory.md section 2, 43_display.md section 2, 60_exceptions.md section 1, with the spec's decisions D5, D12
and D13: where a byte the instruction would access lies at 4096 or above, it halts with the lowest such address and nothing
is stored, loaded or drawn. The halt is a next state (log entry 1). -/
def Obligations.BlockOutOfRangeHalts : Prop :=
  ∀ (s : State) (x y : Reg) (n : Nibble),
    (4096 ≤ s.i.toNat + 2 →
      exec (.ldBcd x) s = .next { s with mode := .halted .memOob (max s.i.toNat 4096) }) ∧
    (4096 ≤ s.i.toNat + x.val →
      exec (.storeRegs x) s = .next { s with mode := .halted .memOob (max s.i.toNat 4096) } ∧
      exec (.loadRegs x) s = .next { s with mode := .halted .memOob (max s.i.toNat 4096) }) ∧
    (0 < n.toNat → 4096 < s.i.toNat + n.toNat →
      exec (.drw x y n) s = .next { s with mode := .halted .memOob (max s.i.toNat 4096) })

/-- 20_memory.md section 6 (derived there; the spec's decisions D5, D23): a store of V0..Vx over the bytes at PC is what
the next step fetches: the two registers stored at PC and PC + 1 are the word it runs. The schedule is the model's own
(log entry 4). -/
def Obligations.StoreIsFetchedNext : Prop :=
  ∀ (s : State) (x a b : Reg) (i : Instr), s.mode = .run → s.pc.toNat + 1 < 4096 →
    s.i.toNat + x.val < 4096 → b.val = a.val + 1 → b ≤ x → s.i.toNat + a.val = s.pc.toNat →
    decodeWord (wordOfBytes (s.getV a) (s.getV b)) = .ok i →
    ∃ t, exec (.storeRegs x) s = .next t ∧
      (s.schedule = [] → step t = exec i { t with pc := t.pc + 2 }) ∧
      (∀ rest, s.schedule = .step :: rest → step t = exec i { t with pc := t.pc + 2, schedule := rest })

/-! ### Display -/

/-- R140: every pixel false; nothing else changes, VF included. -/
def Obligations.ClearScreen : Prop :=
  ∀ s : State, ∃ t, exec .cls s = .next t ∧ (∀ r c, t.fb.pixel r c = false) ∧ t = { s with fb := t.fb }

/-- 43_display.md section 2 (closing equation derived there; decisions D8, D9): where the sprite's bytes lie in memory,
or n is 0, exactly the pixels under its 1 bits flip, coordinates wrapping, and VF is 1 if one of them was set, else 0.
The coordinates are the values Vx and Vy had before, also with x or y = 15; nothing else changes. -/
def Obligations.DrawFlipsCoveredPixels : Prop :=
  ∀ (s : State) (x y : Reg) (n : Nibble), n.toNat = 0 ∨ s.i.toNat + n.toNat ≤ 4096 →
    ∃ t, exec (.drw x y n) s = .next t ∧
      (∀ r c, SpriteCovers s.mem s.i.toNat (s.getV x).toNat (s.getV y).toNat n.toNat r c →
        t.fb.pixel r c = !(s.fb.pixel r c)) ∧
      (∀ r c, ¬ SpriteCovers s.mem s.i.toNat (s.getV x).toNat (s.getV y).toNat n.toNat r c →
        t.fb.pixel r c = s.fb.pixel r c) ∧
      ((∃ r c, SpriteCovers s.mem s.i.toNat (s.getV x).toNat (s.getV y).toNat n.toNat r c ∧
        s.fb.pixel r c = true) → t.getV vf = 1) ∧
      ((¬ ∃ r c, SpriteCovers s.mem s.i.toNat (s.getV x).toNat (s.getV y).toNat n.toNat r c ∧
        s.fb.pixel r c = true) → t.getV vf = 0) ∧
      (∀ r, r ≠ vf → t.getV r = s.getV r) ∧ t = { s with v := t.v, fb := t.fb }

/-- 43_display.md section 3 (derived and stated there as a property; VF as 1 is the spec's decision D8, the case n = 0
its decision D9): drawing the identical sprite at the identical position again restores the framebuffer, and collides
exactly when the first draw left a covered pixel set. The position is identical when neither coordinate is in VF, which
the first draw writes. -/
def Obligations.DrawTwiceRestores : Prop :=
  ∀ (s : State) (x y : Reg) (n : Nibble), x ≠ vf → y ≠ vf → n.toNat = 0 ∨ s.i.toNat + n.toNat ≤ 4096 →
    ∃ t u, exec (.drw x y n) s = .next t ∧ exec (.drw x y n) t = .next u ∧ u.fb = s.fb ∧
      (u.getV vf = 1 ↔ ∃ r c, SpriteCovers s.mem s.i.toNat (s.getV x).toNat (s.getV y).toNat n.toNat r c ∧
        t.fb.pixel r c = true)

/-! ### Keyboard and timer instructions -/

/-- 44_keyboard_timers.md section 1: with Vx below 16 the skips on a key add 2 to PC exactly when KEY[Vx] is down, or is
not; nothing else changes. -/
def Obligations.SkipsOnKey : Prop :=
  ∀ (s : State) (x : Reg) (k : Fin 16), (s.getV x).toNat = k.val →
    (∃ t, exec (.skp x) s = .next t ∧ (s.key[k] = true → t.pc = s.pc + 2) ∧ (s.key[k] = false → t.pc = s.pc) ∧
      OnlyPc s t) ∧
    (∃ t, exec (.sknp x) s = .next t ∧ (s.key[k] = false → t.pc = s.pc + 2) ∧ (s.key[k] = true → t.pc = s.pc) ∧
      OnlyPc s t)

/-- 44_keyboard_timers.md section 1, with the spec's decisions D6, D12: a key number of 16 or more halts the core; it is
not masked. The halt is a next state (log entry 1). -/
def Obligations.KeyNumberOutOfRangeHalts : Prop :=
  ∀ (s : State) (x : Reg), 16 ≤ (s.getV x).toNat →
    exec (.skp x) s = .next { s with mode := .halted .keyOob (s.getV x).toNat } ∧
    exec (.sknp x) s = .next { s with mode := .halted .keyOob (s.getV x).toNat }

/-- 44_keyboard_timers.md section 2, with the spec's decision D11: the instruction enters WAIT_KEY(x) and changes nothing
else; a key event of a key below 16 then writes the key's number to Vx and resumes, KEY unchanged. -/
def Obligations.WaitForKey : Prop :=
  ∀ (s : State) (x : Reg) (k : Nat), k < 16 →
    ∃ t, exec (.ldVxKey x) s = .next t ∧ t.mode = .waitKey x ∧ t = { s with mode := t.mode } ∧
      ∃ u, perform (.keyEvent k) t = .next u ∧ (u.getV x).toNat = k ∧ u.mode = .run ∧
        (∀ r, r ≠ x → u.getV r = s.getV r) ∧ u = { s with v := u.v, mode := u.mode }

/-- R154, R155: LD DT and LD ST copy Vx to their timer; nothing else changes. -/
def Obligations.TimerWrites : Prop :=
  ∀ (s : State) (x : Reg),
    (∃ t, exec (.ldDtVx x) s = .next t ∧ t.dt = s.getV x ∧ t = { s with dt := t.dt }) ∧
    (∃ t, exec (.ldStVx x) s = .next t ∧ t.st = s.getV x ∧ t = { s with st := t.st })

/-! ### All instructions -/

/-- 10_state.md sections 2 and 11: an instruction changes no V register but its destinations, VF among them only where
it is the destination or one of the six instructions that write it as a flag. -/
def Obligations.RegisterFrame : Prop :=
  ∀ (i : Instr) (s t : State) (r : Reg), exec i s = .next t → r ∉ dests i → t.getV r = s.getV r

/-- 10_state.md section 11 and 20_memory.md section 4, with the spec's decision D5 (inclusive): a byte of memory that an
instruction changes lies in the three bytes of LD B or in the block of LD [I], whose addresses are formed from I. -/
def Obligations.MemoryFrame : Prop :=
  ∀ (i : Instr) (s t : State) (a : Nat), exec i s = .next t → t.mem.read a ≠ s.mem.read a →
    ((∃ x, i = .ldBcd x) ∧ s.i.toNat ≤ a ∧ a ≤ s.i.toNat + 2) ∨
    (∃ x, i = .storeRegs x ∧ s.i.toNat ≤ a ∧ a ≤ s.i.toNat + x.val)

/-- 10_state.md section 11, the column of writes by instructions, for the state outside V, PC and MEM; KEY is written by
no instruction. MODE changes only to WAIT_KEY, by Fx0A (the spec's decision D11), or to HALTED, by a fatal condition
that changes nothing else (D12, D13; a next state by log entry 1). The random source, the schedule and the reply are the
model's own (log entries 3, 4, 5). -/
def Obligations.SpecialStateFrame : Prop :=
  ∀ (i : Instr) (s t : State), exec i s = .next t →
    (t.i ≠ s.i → (∃ nnn, i = .ldI nnn) ∨ ∃ x, i = .addI x ∨ i = .ldFont x) ∧
    (t.sp ≠ s.sp → (∃ nnn, i = .call nnn) ∨ i = .ret) ∧
    (t.stack ≠ s.stack → ∃ nnn, i = .call nnn) ∧
    (t.dt ≠ s.dt → ∃ x, i = .ldDtVx x) ∧
    (t.st ≠ s.st → ∃ x, i = .ldStVx x) ∧
    (t.fb ≠ s.fb → i = .cls ∨ ∃ x y n, i = .drw x y n) ∧
    (∀ x, t.mode = .waitKey x → s.mode = .waitKey x ∨ i = .ldVxKey x) ∧
    (t.mode ≠ s.mode →
      (∃ x, i = .ldVxKey x ∧ t.mode = .waitKey x) ∨
      ((∃ cause info, t = { s with mode := .halted cause info }) ∧
        ((∃ nnn, i = .call nnn) ∨ i = .ret ∨ (∃ x y n, i = .drw x y n) ∨
          ∃ x, i = .skp x ∨ i = .sknp x ∨ i = .ldBcd x ∨ i = .storeRegs x ∨ i = .loadRegs x))) ∧
    (t.draws ≠ s.draws → ∃ x kk, i = .rnd x kk) ∧
    t.key = s.key ∧ t.schedule = s.schedule ∧ t.reply = s.reply

/-- 60_exceptions.md section 4: no instruction reads ST, so with any other value in ST an instruction does the same to
everything else. The two states have the same counter of draws, so `Cxkk` draws the same byte in both (log entry 3); a
halt is a next state (log entry 1). -/
def Obligations.SoundTimerIsNotRead : Prop :=
  ∀ (i : Instr) (s : State) (b : Byte),
    ∃ t u, exec i s = .next t ∧ exec i { s with st := b } = .next u ∧ { u with st := t.st } = t

/-- 60_exceptions.md section 2 and 10_state.md section 3: where an instruction leaves PC, relative to the advanced PC it
found: unchanged, a skip further, an absolute target, nnn + V0, or the popped return address. -/
def Obligations.PcAfterInstruction : Prop :=
  ∀ (i : Instr) (s t : State), exec i s = .next t → t.pc ≠ s.pc →
    (t.pc = s.pc + 2 ∧ ((∃ x kk, i = .seImm x kk ∨ i = .sneImm x kk) ∨ (∃ x y, i = .seReg x y ∨ i = .sneReg x y) ∨
      ∃ x, i = .skp x ∨ i = .sknp x)) ∨
    (∃ nnn, (i = .jp nnn ∨ i = .call nnn) ∧ t.pc.toNat = nnn.toNat) ∨
    (∃ nnn, i = .jpV0 nnn ∧ t.pc.toNat = nnn.toNat + (s.getV 0).toNat) ∨
    (i = .ret ∧ ∃ k : Fin 16, k.val + 1 = s.sp.val ∧ t.pc = s.stack[k])

/-! ### Host operations -/

/-- 60_exceptions.md section 4: a tick in RUN lowers each timer by one and stops at 0; in any other MODE it does nothing
(in HALTED by the spec's decision D12). -/
def Obligations.TickCountsDown : Prop :=
  ∀ s : State,
    (s.mode = .run → ∃ t, perform .tick s = .next t ∧ t.dt.toNat = s.dt.toNat - 1 ∧ t.st.toNat = s.st.toNat - 1 ∧
      t = { s with dt := t.dt, st := t.st }) ∧
    (s.mode ≠ .run → perform .tick s = .next s)

/-- 60_exceptions.md section 5 (HALTED and the cause are the spec's decision D12, the dropped event D11): key_down and
key_up write KEY[k] in RUN and WAIT_KEY; a key_event in RUN does nothing; a key number of 16 or more halts the core, a
next state (log entry 1). -/
def Obligations.KeyOperations : Prop :=
  ∀ (s : State) (k : Nat), s.isHalted = false →
    (∀ _ : k < 16,
      (∃ t, perform (.keyDown k) s = .next t ∧ t.key[k] = true ∧
        (∀ j : Fin 16, j.val ≠ k → t.key[j] = s.key[j]) ∧ t = { s with key := t.key }) ∧
      (∃ t, perform (.keyUp k) s = .next t ∧ t.key[k] = false ∧
        (∀ j : Fin 16, j.val ≠ k → t.key[j] = s.key[j]) ∧ t = { s with key := t.key }) ∧
      (s.mode = .run → perform (.keyEvent k) s = .next s)) ∧
    (16 ≤ k → perform (.keyDown k) s = .next { s with mode := .halted .keyOob k } ∧
      perform (.keyUp k) s = .next { s with mode := .halted .keyOob k } ∧
      perform (.keyEvent k) s = .next { s with mode := .halted .keyOob k })

/-- 60_exceptions.md section 4, with the spec's decision D21: sound_read returns ST and changes nothing; sound_consume
returns ST and clears it, unless the core is halted. What is returned stands in `reply` (log entry 5). -/
def Obligations.SoundReadAndConsume : Prop :=
  ∀ s : State,
    perform .soundRead s = .next { s with reply := some (.sound s.st) } ∧
    (s.isHalted = false → perform .soundConsume s = .next { s with reply := some (.sound s.st), st := 0 }) ∧
    (s.isHalted = true → perform .soundConsume s = .next { s with reply := some (.sound s.st) })

/-- 60_exceptions.md section 6 (HALTED and the cause are the spec's decision D12): is_set returns the pixel at column x,
row y; out of range it returns false from a halted core, and halts any other, a next state (log entry 1). What is
returned stands in `reply` (log entry 5). -/
def Obligations.PixelRead : Prop :=
  ∀ (s : State) (x y : Nat),
    (∀ (hx : x < 64) (hy : y < 32),
      perform (.isSet x y) s = .next { s with reply := some (.pixel (s.fb.pixel ⟨y, hy⟩ ⟨x, hx⟩)) }) ∧
    (64 ≤ x ∨ 32 ≤ y → s.isHalted = true →
      perform (.isSet x y) s = .next { s with reply := some (.pixel false) }) ∧
    (64 ≤ x ∨ 32 ≤ y → s.isHalted = false →
      perform (.isSet x y) s = .next { s with mode := .halted .screenOob (y * 256 + x) })

/-- 70_reset_and_hazards.md section 2, with the spec's decisions D12, D16: a load in RUN of an image that fits copies it
to 512 and sets PC to 512, all else as before; one that does not fit halts the core with nothing copied, a next
state (log entry 1); in any other MODE a load does nothing. -/
def Obligations.LoadPlacesProgram : Prop :=
  ∀ (s : State) (buf : List Byte),
    (s.mode = .run → 512 + buf.length < 4096 → ∃ t, perform (.load buf) s = .next t ∧ t.pc = 512 ∧
      (∀ (k : Nat) (_ : k < buf.length), t.mem.read (512 + k) = buf[k]) ∧
      (∀ a, ¬ (512 ≤ a ∧ a < 512 + buf.length) → t.mem.read a = s.mem.read a) ∧
      t = { s with pc := t.pc, mem := t.mem }) ∧
    (s.mode = .run → 4096 ≤ 512 + buf.length →
      perform (.load buf) s = .next { s with mode := .halted .loadTooLarge buf.length }) ∧
    (s.mode ≠ .run → perform (.load buf) s = .next s)

/-- 60_exceptions.md section 1, with the spec's decision D12: in a halted core every operation but reset leaves the
state as it is, the first cause kept; only the value returned to the host may be new (log entries 1, 5). -/
def Obligations.HaltedIsFrozen : Prop :=
  ∀ (s : State) (op : Operation), s.isHalted = true → op ≠ .reset →
    ∃ t, perform op s = .next t ∧ t = { s with reply := t.reply }

/-- 60_exceptions.md sections 5 and 7, with the spec's decision D11: while a key is awaited, a step, a tick and a load do
nothing, and no operation but key_event and reset ends the wait, except one whose argument is fatal (D12; log entry 1).
All state survives: but for those two operations only KEY, ST and MODE, and the value returned (log entry 5), can
change. A key event of a key below 16 writes the key to Vx and resumes, with all else as it was. -/
def Obligations.WaitingIsFrozen : Prop :=
  ∀ (s : State) (x : Reg), s.mode = .waitKey x →
    perform .step s = .next s ∧ perform .tick s = .next s ∧ (∀ buf, perform (.load buf) s = .next s) ∧
    (∀ op, op ≠ .reset → (∀ k, op ≠ .keyEvent k) →
      ∃ t, perform op s = .next t ∧ (t.mode = .waitKey x ∨ t.isHalted = true) ∧
        t = { s with key := t.key, st := t.st, mode := t.mode, reply := t.reply }) ∧
    (∀ k, k < 16 → ∃ t, perform (.keyEvent k) s = .next t ∧ (t.getV x).toNat = k ∧ t.mode = .run ∧
      (∀ r, r ≠ x → t.getV r = s.getV r) ∧ t = { s with v := t.v, mode := t.mode })
end

