-- ==== Sys2Proof/Laws/Display.lean ====
section
/-! SUPPORT. The framebuffer: what a pixel is after each operation (43_display.md R140, R142). -/

namespace Sys2Proof.Machine

/-- A flip inverts its own pixel and leaves every other. -/
theorem Framebuffer.pixel_flip (fb : Framebuffer) (r r' : Fin 32) (c c' : Fin 64) :
    (fb.flip r c).pixel r' c' = if r' = r ∧ c' = c then !(fb.pixel r' c') else fb.pixel r' c' := by
  simp only [Framebuffer.pixel, Framebuffer.flip, Vector.getElem_set, Fin.ext_iff]
  by_cases hr : r.val = r'.val
  · by_cases hc : c.val = c'.val
    · simp [hr, hc]
    · simp [hr, hc, eq_comm]
  · simp [hr, eq_comm]

/-- The clear framebuffer has no pixel set. -/
@[simp] theorem Framebuffer.pixel_clear (r : Fin 32) (c : Fin 64) : Framebuffer.clear.pixel r c = false := by
  simp [Framebuffer.pixel, Framebuffer.clear]

/-- Two framebuffers with the same pixels are the same. -/
theorem Framebuffer.ext_pixel {f g : Framebuffer} (h : ∀ r c, f.pixel r c = g.pixel r c) : f = g := by
  refine Vector.ext fun r hr => Vector.ext fun c hc => ?_
  exact h ⟨r, hr⟩ ⟨c, hc⟩

/-- The pixels of one sprite row: a column offset with a 1 bit, wrapped. -/
theorem mem_spriteRow (b : Byte) (x y : Nat) (r : Fin 32) (c : Fin 64) :
    (r, c) ∈ spriteRow b x y ↔
      r.val = y % 32 ∧ ∃ col, col < 8 ∧ b.getLsbD (7 - col) = true ∧ c.val = (x + col) % 64 := by
  simp only [spriteRow, List.mem_map, List.mem_filter, Prod.mk.injEq, Fin.ext_iff]
  have key : ∀ col, col ∈ [0, 1, 2, 3, 4, 5, 6, 7] ↔ col < 8 := by intro col; simp; omega
  constructor
  · rintro ⟨col, ⟨hm, hb⟩, hr, hc⟩
    exact ⟨hr.symm, col, (key col).mp hm, hb, hc.symm⟩
  · rintro ⟨hr, col, hm, hb, hc⟩
    exact ⟨col, ⟨(key col).mpr hm, hb⟩, hr.symm, hc.symm⟩

/-- The pixels of a sprite: those of its rows, one row of the grid further each. -/
theorem mem_spritePixels (bs : List Byte) (x y : Nat) (r : Fin 32) (c : Fin 64) :
    (r, c) ∈ spritePixels bs x y ↔
      ∃ row col, ∃ h : row < bs.length, col < 8 ∧ bs[row].getLsbD (7 - col) = true ∧
        r.val = (y + row) % 32 ∧ c.val = (x + col) % 64 := by
  induction bs generalizing y with
  | nil => simp [spritePixels]
  | cons b bs ih =>
    rw [spritePixels, List.mem_append, mem_spriteRow, ih]
    constructor
    · rintro (⟨hr, col, hc, hb, hx⟩ | ⟨row, col, h, hc, hb, hr, hx⟩)
      · exact ⟨0, col, by simp, hc, by simpa using hb, by simpa using hr, hx⟩
      · exact ⟨row + 1, col, by simpa using h, hc, by simpa using hb, by rw [hr]; congr 1; omega, hx⟩
    · rintro ⟨row, col, h, hc, hb, hr, hx⟩
      cases row with
      | zero => exact Or.inl ⟨by simpa using hr, col, hc, by simpa using hb, hx⟩
      | succ row =>
        exact Or.inr ⟨row, col, by simpa using h, hc, by simpa using hb, by rw [hr]; congr 1; omega, hx⟩

/-- No pixel stands twice in a sprite of at most 32 rows, so the order of drawing does not matter (R142). -/
theorem spritePixels_nodup (bs : List Byte) (x y : Nat) (h : bs.length ≤ 32) : (spritePixels bs x y).Nodup := by
  induction bs generalizing y with
  | nil => simp [spritePixels]
  | cons b bs ih =>
    simp only [List.length_cons] at h
    rw [spritePixels]
    refine List.Nodup.append ?_ (ih _ (by omega)) ?_
    · rw [spriteRow]
      refine List.Nodup.map_on ?_ (List.Nodup.filter _ (by decide))
      intro p hp q hq heq
      simp only [Prod.mk.injEq, Fin.ext_iff] at heq
      have hp8 : p < 8 := by have := (List.mem_filter.mp hp).1; simp at this; omega
      have hq8 : q < 8 := by have := (List.mem_filter.mp hq).1; simp at this; omega
      omega
    · rintro ⟨r, c⟩ h1 h2
      have hr1 := ((mem_spriteRow b x y r c).mp h1).1
      obtain ⟨row, _, hrow, _, _, hr2, _⟩ := (mem_spritePixels bs x (y + 1) r c).mp h2
      omega

/-- Drawing over pixels that stand once each flips exactly those, and collides when one of them was set (R142). -/
theorem flipPixels_spec (ps : List (Fin 32 × Fin 64)) (fb : Framebuffer) (b : Bool) (h : ps.Nodup) :
    (∀ r c, (flipPixels ps fb b).1.pixel r c = if (r, c) ∈ ps then !(fb.pixel r c) else fb.pixel r c) ∧
    ((flipPixels ps fb b).2 = true ↔ b = true ∨ ∃ p ∈ ps, fb.pixel p.1 p.2 = true) := by
  induction ps generalizing fb b with
  | nil => simp [flipPixels]
  | cons p ps ih =>
    obtain ⟨r0, c0⟩ := p
    obtain ⟨hp, hn⟩ := List.nodup_cons.mp h
    rw [flipPixels]
    obtain ⟨h1, h2⟩ := ih (fb.flip r0 c0) (b || fb.pixel r0 c0) hn
    refine ⟨fun r c => ?_, ?_⟩
    · rw [h1, Framebuffer.pixel_flip]
      by_cases he : r = r0 ∧ c = c0
      · obtain ⟨rfl, rfl⟩ := he
        simp [hp]
      · simp only [he, if_false, List.mem_cons, Prod.mk.injEq, false_or]
    · rw [h2]
      have hf : ∀ q ∈ ps, (fb.flip r0 c0).pixel q.1 q.2 = fb.pixel q.1 q.2 := by
        intro q hq
        rw [Framebuffer.pixel_flip, if_neg]
        rintro ⟨h3, h4⟩
        exact hp (by rw [← h3, ← h4]; exact hq)
      simp only [Bool.or_eq_true, List.mem_cons, exists_eq_or_imp, or_assoc]
      refine or_congr_right (or_congr_right ⟨?_, ?_⟩)
      · rintro ⟨q, hq, hx⟩; exact ⟨q, hq, by rwa [hf q hq] at hx⟩
      · rintro ⟨q, hq, hx⟩; exact ⟨q, hq, by rwa [hf q hq]⟩

end Sys2Proof.Machine
end

