-- ==== Sys2Proof/Laws/Memory.lean ====
section
/-! SUPPORT. Memory: what a byte reads after each operation, that every operation keeps the canonical form, and what
each bounds-checked access answers. -/

namespace Sys2Proof.Machine

@[simp] theorem Memory.read_nil (a : Nat) : Memory.read [] a = Memory.unlisted a := rfl

theorem Memory.read_cons (b : Nat) (w : Byte) (m : Memory) (a : Nat) :
    Memory.read ((b, w) :: m) a = if a = b then w else Memory.read m a := rfl

/-- A byte at another address does not see an erasure; the erased byte reads as its reset contents. -/
theorem Memory.read_erase (m : Memory) (a a' : Nat) :
    (m.erase a).read a' = if a' = a then Memory.unlisted a' else m.read a' := by
  induction m with
  | nil => simp [Memory.erase]
  | cons c m ih =>
    obtain ⟨b, w⟩ := c
    rw [Memory.erase] at ih ⊢
    by_cases hb : b = a
    · subst hb
      simp only [List.filter_cons, bne_self_eq_false, Bool.false_eq_true, if_false, ih, Memory.read_cons]
      split <;> simp_all
    · simp only [List.filter_cons, bne_iff_ne, ne_eq, hb, not_false_eq_true, if_true, Memory.read_cons, ih]
      split
      · next h => rw [if_neg (h ▸ hb)]
      · rfl

/-- An inserted byte reads back where no other cell has its address; every other byte is as before. -/
theorem Memory.read_insert (m : Memory) (a : Nat) (w : Byte) (h : ∀ c ∈ m, c.1 ≠ a) (a' : Nat) :
    (m.insert a w).read a' = if a' = a then w else m.read a' := by
  induction m with
  | nil => rfl
  | cons c m ih =>
    obtain ⟨b, u⟩ := c
    have hb : b ≠ a := h _ (List.mem_cons_self ..)
    rw [Memory.insert]
    split
    · rfl
    · rw [Memory.read_cons, ih (fun c hc => h c (List.mem_cons_of_mem _ hc)), Memory.read_cons]
      split
      · next h' => rw [if_neg (h' ▸ hb)]
      · rfl

theorem Memory.fst_ne_of_mem_erase {m : Memory} {a : Nat} {c : Host.Cell} (h : c ∈ m.erase a) : c.1 ≠ a := by
  simpa using (List.mem_filter.mp h).2

/-- A read after a write gives the byte written at its address, and what was there before at every other. -/
theorem Memory.read_write (m : Memory) (a : Nat) (w : Byte) (a' : Nat) :
    (m.write a w).read a' = if a' = a then w else m.read a' := by
  rw [Memory.write]
  split
  · next h => rw [Memory.read_erase]; split <;> simp_all
  · rw [Memory.read_insert _ _ _ (fun c hc => Memory.fst_ne_of_mem_erase hc), Memory.read_erase]
    split <;> simp_all

@[simp] theorem Memory.read_write_self (m : Memory) (a : Nat) (w : Byte) : (m.write a w).read a = w := by
  simp [Memory.read_write]

/-- A read after a write of consecutive bytes. -/
theorem Memory.read_writeBytes (m : Memory) (a : Nat) (ws : List Byte) (a' : Nat) :
    (m.writeBytes a ws).read a' =
      if h : a ≤ a' ∧ a' < a + ws.length then ws[a' - a]'(by omega) else m.read a' := by
  induction ws generalizing m a with
  | nil => simp [Memory.writeBytes, show ¬ (a ≤ a' ∧ a' < a) by omega]
  | cons w ws ih =>
    rw [Memory.writeBytes, ih, Memory.read_write]
    by_cases h1 : a' = a
    · subst h1; simp
    · by_cases h2 : a + 1 ≤ a' ∧ a' < a + 1 + ws.length
      · have h3 : a ≤ a' ∧ a' < a + (w :: ws).length := by simp only [List.length_cons]; omega
        rw [dif_pos h2, dif_pos h3]
        obtain ⟨k, rfl⟩ : ∃ k, a' = a + 1 + k := ⟨a' - (a + 1), by omega⟩
        simp [show a + 1 + k - a = k + 1 by omega]
      · have h3 : ¬ (a ≤ a' ∧ a' < a + (w :: ws).length) := by simp only [List.length_cons]; omega
        rw [dif_neg h2, dif_neg h3, if_neg h1]

/-! ### The canonical form -/

/-- Memory at reset, nothing listed, is in canonical form. -/
theorem Memory.wf_nil : Memory.wf [] := by simp [Memory.wf]

/-- The memory of the reset state is in canonical form. -/
theorem State.reset_mem_wf : State.reset.mem.wf := Memory.wf_nil

theorem Memory.wf_erase {m : Memory} (h : m.wf) (a : Nat) : (m.erase a).wf :=
  ⟨h.1.filter _, fun c hc => h.2 c (List.mem_filter.mp hc).1⟩

theorem Memory.mem_insert {m : Memory} {a : Nat} {w : Byte} {c : Host.Cell} :
    c ∈ m.insert a w ↔ c = (a, w) ∨ c ∈ m := by
  induction m with
  | nil => simp [Memory.insert]
  | cons d m ih =>
    obtain ⟨b, u⟩ := d
    rw [Memory.insert]
    split
    · simp
    · simp only [List.mem_cons, ih]; tauto

theorem Memory.wf_insert {m : Memory} (h : m.wf) {a : Nat} {w : Byte} (ha : a < 4096) (hw : w ≠ Memory.unlisted a)
    (hne : ∀ c ∈ m, c.1 ≠ a) : (m.insert a w).wf := by
  refine ⟨?_, fun c hc => ?_⟩
  · induction m with
    | nil => simp [Memory.insert]
    | cons d m ih =>
      obtain ⟨b, u⟩ := d
      obtain ⟨hp, hm⟩ := List.pairwise_cons.mp h.1
      have hb : b ≠ a := hne _ (List.mem_cons_self ..)
      rw [Memory.insert]
      split
      · next hlt =>
        refine List.pairwise_cons.mpr ⟨fun c hc => ?_, h.1⟩
        rcases List.mem_cons.mp hc with rfl | hc
        · exact hlt
        · exact Nat.lt_trans hlt (hp c hc)
      · refine List.pairwise_cons.mpr ⟨fun c hc => ?_, ?_⟩
        · rcases Memory.mem_insert.mp hc with rfl | hc
          · show b < a; omega
          · exact hp c hc
        · exact ih ⟨hm, fun c hc => h.2 c (List.mem_cons_of_mem _ hc)⟩ (fun c hc => hne c (List.mem_cons_of_mem _ hc))
  · rcases Memory.mem_insert.mp hc with rfl | hc
    · exact ⟨ha, hw⟩
    · exact h.2 c hc

/-- A write inside the memory keeps the canonical form. -/
theorem Memory.wf_write {m : Memory} (h : m.wf) {a : Nat} (w : Byte) (ha : a < 4096) : (m.write a w).wf := by
  rw [Memory.write]
  split
  · exact Memory.wf_erase h a
  · next hw => exact Memory.wf_insert (Memory.wf_erase h a) ha hw (fun c hc => Memory.fst_ne_of_mem_erase hc)

/-- Consecutive writes inside the memory keep the canonical form. -/
theorem Memory.wf_writeBytes {m : Memory} (h : m.wf) {a : Nat} {ws : List Byte} (ha : a + ws.length ≤ 4096) :
    (m.writeBytes a ws).wf := by
  induction ws generalizing m a with
  | nil => exact h
  | cons w ws ih =>
    simp only [List.length_cons] at ha
    exact ih (Memory.wf_write h w (by omega)) (by omega)

/-! ### The bounds-checked accesses -/

/-- What a block read answers: all its bytes, or the lowest address out of range (20_memory.md R55). -/
theorem memReadBlock_eq (m : Memory) (a n : Nat) :
    memReadBlock m a n =
      if n = 0 ∨ a + n ≤ 4096 then .ok ((List.range' a n).map m.read) else .error ⟨.memOob, max a 4096⟩ := by
  induction n generalizing a with
  | zero => simp [memReadBlock]
  | succ n ih =>
    rw [memReadBlock, memRead1]
    by_cases h : a < 4096
    · rw [if_pos h, ih]
      by_cases h2 : n = 0 ∨ a + 1 + n ≤ 4096
      · have h3 : n + 1 = 0 ∨ a + (n + 1) ≤ 4096 := by omega
        rw [if_pos h2, if_pos h3]
        simp [bind, Except.bind, List.range'_succ]
      · have h3 : ¬ (n + 1 = 0 ∨ a + (n + 1) ≤ 4096) := by omega
        rw [if_neg h2, if_neg h3]
        simp only [bind, Except.bind]
        congr 2
        omega
    · have h3 : ¬ (n + 1 = 0 ∨ a + (n + 1) ≤ 4096) := by omega
      rw [if_neg h, if_neg h3]
      simp only [bind, Except.bind]
      congr 2
      omega

/-- What a block write answers: all its bytes written, or none and the lowest address out of range (R55). -/
theorem memWriteBlock_eq (m : Memory) (a : Nat) (ws : List Byte) :
    memWriteBlock m a ws =
      if ws = [] ∨ a + ws.length ≤ 4096 then .ok (m.writeBytes a ws) else .error ⟨.memOob, max a 4096⟩ := by
  induction ws generalizing m a with
  | nil => simp [memWriteBlock, Memory.writeBytes]
  | cons w ws ih =>
    rw [memWriteBlock, memWrite1]
    by_cases h : a < 4096
    · rw [if_pos h]
      simp only [bind, Except.bind]
      rw [ih]
      by_cases h2 : ws = [] ∨ a + 1 + ws.length ≤ 4096
      · have h3 : w :: ws = [] ∨ a + (w :: ws).length ≤ 4096 := by
          rcases h2 with rfl | h2
          · right; simp; omega
          · right; simp only [List.length_cons]; omega
        rw [if_pos h2, if_pos h3, Memory.writeBytes]
      · have h3 : ¬ (w :: ws = [] ∨ a + (w :: ws).length ≤ 4096) := by
          simp only [not_or, List.length_cons] at h2 ⊢
          exact ⟨List.cons_ne_nil _ _, by omega⟩
        rw [if_neg h2, if_neg h3]
        congr 2
        omega
    · have h3 : ¬ (w :: ws = [] ∨ a + (w :: ws).length ≤ 4096) := by
        simp only [not_or, List.length_cons]
        exact ⟨List.cons_ne_nil _ _, by omega⟩
      rw [if_neg h, if_neg h3]
      simp only [bind, Except.bind]
      congr 2
      omega

/-- A block write that answers keeps the canonical form. -/
theorem memWriteBlock_wf {m m' : Memory} {a : Nat} {ws : List Byte} (h : m.wf) (hw : memWriteBlock m a ws = .ok m') :
    m'.wf := by
  rw [memWriteBlock_eq] at hw
  split at hw
  · next hc =>
    obtain rfl : m.writeBytes a ws = m' := by simpa using hw
    rcases hc with rfl | hc
    · exact h
    · exact Memory.wf_writeBytes h hc
  · simp at hw

end Sys2Proof.Machine
end

