-- ==== Sys2Proof/Laws/State.lean ====
section
/-! SUPPORT. Each named update of the state, field by field, and each register after each update, so that no proof
unfolds a record update. -/

namespace Sys2Proof.Machine

variable (s : State)

@[simp] theorem State.setV_v (x : Reg) (b : Byte) : (s.setV x b).v = s.v.set x.val b := rfl
@[simp] theorem State.setV_i (x : Reg) (b : Byte) : (s.setV x b).i = s.i := rfl
@[simp] theorem State.setV_pc (x : Reg) (b : Byte) : (s.setV x b).pc = s.pc := rfl
@[simp] theorem State.setV_sp (x : Reg) (b : Byte) : (s.setV x b).sp = s.sp := rfl
@[simp] theorem State.setV_stack (x : Reg) (b : Byte) : (s.setV x b).stack = s.stack := rfl
@[simp] theorem State.setV_dt (x : Reg) (b : Byte) : (s.setV x b).dt = s.dt := rfl
@[simp] theorem State.setV_st (x : Reg) (b : Byte) : (s.setV x b).st = s.st := rfl
@[simp] theorem State.setV_mem (x : Reg) (b : Byte) : (s.setV x b).mem = s.mem := rfl
@[simp] theorem State.setV_fb (x : Reg) (b : Byte) : (s.setV x b).fb = s.fb := rfl
@[simp] theorem State.setV_key (x : Reg) (b : Byte) : (s.setV x b).key = s.key := rfl
@[simp] theorem State.setV_mode (x : Reg) (b : Byte) : (s.setV x b).mode = s.mode := rfl
@[simp] theorem State.setV_draws (x : Reg) (b : Byte) : (s.setV x b).draws = s.draws := rfl
@[simp] theorem State.setV_schedule (x : Reg) (b : Byte) : (s.setV x b).schedule = s.schedule := rfl
@[simp] theorem State.setV_reply (x : Reg) (b : Byte) : (s.setV x b).reply = s.reply := rfl

@[simp] theorem State.setI_v (w : Word) : (s.setI w).v = s.v := rfl
@[simp] theorem State.setI_i (w : Word) : (s.setI w).i = w := rfl
@[simp] theorem State.setI_pc (w : Word) : (s.setI w).pc = s.pc := rfl
@[simp] theorem State.setI_sp (w : Word) : (s.setI w).sp = s.sp := rfl
@[simp] theorem State.setI_stack (w : Word) : (s.setI w).stack = s.stack := rfl
@[simp] theorem State.setI_dt (w : Word) : (s.setI w).dt = s.dt := rfl
@[simp] theorem State.setI_st (w : Word) : (s.setI w).st = s.st := rfl
@[simp] theorem State.setI_mem (w : Word) : (s.setI w).mem = s.mem := rfl
@[simp] theorem State.setI_fb (w : Word) : (s.setI w).fb = s.fb := rfl
@[simp] theorem State.setI_key (w : Word) : (s.setI w).key = s.key := rfl
@[simp] theorem State.setI_mode (w : Word) : (s.setI w).mode = s.mode := rfl
@[simp] theorem State.setI_draws (w : Word) : (s.setI w).draws = s.draws := rfl
@[simp] theorem State.setI_schedule (w : Word) : (s.setI w).schedule = s.schedule := rfl
@[simp] theorem State.setI_reply (w : Word) : (s.setI w).reply = s.reply := rfl

@[simp] theorem State.setPc_v (w : Word) : (s.setPc w).v = s.v := rfl
@[simp] theorem State.setPc_i (w : Word) : (s.setPc w).i = s.i := rfl
@[simp] theorem State.setPc_pc (w : Word) : (s.setPc w).pc = w := rfl
@[simp] theorem State.setPc_sp (w : Word) : (s.setPc w).sp = s.sp := rfl
@[simp] theorem State.setPc_stack (w : Word) : (s.setPc w).stack = s.stack := rfl
@[simp] theorem State.setPc_dt (w : Word) : (s.setPc w).dt = s.dt := rfl
@[simp] theorem State.setPc_st (w : Word) : (s.setPc w).st = s.st := rfl
@[simp] theorem State.setPc_mem (w : Word) : (s.setPc w).mem = s.mem := rfl
@[simp] theorem State.setPc_fb (w : Word) : (s.setPc w).fb = s.fb := rfl
@[simp] theorem State.setPc_key (w : Word) : (s.setPc w).key = s.key := rfl
@[simp] theorem State.setPc_mode (w : Word) : (s.setPc w).mode = s.mode := rfl
@[simp] theorem State.setPc_draws (w : Word) : (s.setPc w).draws = s.draws := rfl
@[simp] theorem State.setPc_schedule (w : Word) : (s.setPc w).schedule = s.schedule := rfl
@[simp] theorem State.setPc_reply (w : Word) : (s.setPc w).reply = s.reply := rfl

@[simp] theorem State.advance_v : (s.advance).v = s.v := rfl
@[simp] theorem State.advance_i : (s.advance).i = s.i := rfl
@[simp] theorem State.advance_pc : (s.advance).pc = s.pc + 2 := rfl
@[simp] theorem State.advance_sp : (s.advance).sp = s.sp := rfl
@[simp] theorem State.advance_stack : (s.advance).stack = s.stack := rfl
@[simp] theorem State.advance_dt : (s.advance).dt = s.dt := rfl
@[simp] theorem State.advance_st : (s.advance).st = s.st := rfl
@[simp] theorem State.advance_mem : (s.advance).mem = s.mem := rfl
@[simp] theorem State.advance_fb : (s.advance).fb = s.fb := rfl
@[simp] theorem State.advance_key : (s.advance).key = s.key := rfl
@[simp] theorem State.advance_mode : (s.advance).mode = s.mode := rfl
@[simp] theorem State.advance_draws : (s.advance).draws = s.draws := rfl
@[simp] theorem State.advance_schedule : (s.advance).schedule = s.schedule := rfl
@[simp] theorem State.advance_reply : (s.advance).reply = s.reply := rfl

@[simp] theorem State.setMem_v (m : Memory) : (s.setMem m).v = s.v := rfl
@[simp] theorem State.setMem_i (m : Memory) : (s.setMem m).i = s.i := rfl
@[simp] theorem State.setMem_pc (m : Memory) : (s.setMem m).pc = s.pc := rfl
@[simp] theorem State.setMem_sp (m : Memory) : (s.setMem m).sp = s.sp := rfl
@[simp] theorem State.setMem_stack (m : Memory) : (s.setMem m).stack = s.stack := rfl
@[simp] theorem State.setMem_dt (m : Memory) : (s.setMem m).dt = s.dt := rfl
@[simp] theorem State.setMem_st (m : Memory) : (s.setMem m).st = s.st := rfl
@[simp] theorem State.setMem_mem (m : Memory) : (s.setMem m).mem = m := rfl
@[simp] theorem State.setMem_fb (m : Memory) : (s.setMem m).fb = s.fb := rfl
@[simp] theorem State.setMem_key (m : Memory) : (s.setMem m).key = s.key := rfl
@[simp] theorem State.setMem_mode (m : Memory) : (s.setMem m).mode = s.mode := rfl
@[simp] theorem State.setMem_draws (m : Memory) : (s.setMem m).draws = s.draws := rfl
@[simp] theorem State.setMem_schedule (m : Memory) : (s.setMem m).schedule = s.schedule := rfl
@[simp] theorem State.setMem_reply (m : Memory) : (s.setMem m).reply = s.reply := rfl

@[simp] theorem State.setFb_v (fb : Framebuffer) : (s.setFb fb).v = s.v := rfl
@[simp] theorem State.setFb_i (fb : Framebuffer) : (s.setFb fb).i = s.i := rfl
@[simp] theorem State.setFb_pc (fb : Framebuffer) : (s.setFb fb).pc = s.pc := rfl
@[simp] theorem State.setFb_sp (fb : Framebuffer) : (s.setFb fb).sp = s.sp := rfl
@[simp] theorem State.setFb_stack (fb : Framebuffer) : (s.setFb fb).stack = s.stack := rfl
@[simp] theorem State.setFb_dt (fb : Framebuffer) : (s.setFb fb).dt = s.dt := rfl
@[simp] theorem State.setFb_st (fb : Framebuffer) : (s.setFb fb).st = s.st := rfl
@[simp] theorem State.setFb_mem (fb : Framebuffer) : (s.setFb fb).mem = s.mem := rfl
@[simp] theorem State.setFb_fb (fb : Framebuffer) : (s.setFb fb).fb = fb := rfl
@[simp] theorem State.setFb_key (fb : Framebuffer) : (s.setFb fb).key = s.key := rfl
@[simp] theorem State.setFb_mode (fb : Framebuffer) : (s.setFb fb).mode = s.mode := rfl
@[simp] theorem State.setFb_draws (fb : Framebuffer) : (s.setFb fb).draws = s.draws := rfl
@[simp] theorem State.setFb_schedule (fb : Framebuffer) : (s.setFb fb).schedule = s.schedule := rfl
@[simp] theorem State.setFb_reply (fb : Framebuffer) : (s.setFb fb).reply = s.reply := rfl

@[simp] theorem State.setMode_v (m : Mode) : (s.setMode m).v = s.v := rfl
@[simp] theorem State.setMode_i (m : Mode) : (s.setMode m).i = s.i := rfl
@[simp] theorem State.setMode_pc (m : Mode) : (s.setMode m).pc = s.pc := rfl
@[simp] theorem State.setMode_sp (m : Mode) : (s.setMode m).sp = s.sp := rfl
@[simp] theorem State.setMode_stack (m : Mode) : (s.setMode m).stack = s.stack := rfl
@[simp] theorem State.setMode_dt (m : Mode) : (s.setMode m).dt = s.dt := rfl
@[simp] theorem State.setMode_st (m : Mode) : (s.setMode m).st = s.st := rfl
@[simp] theorem State.setMode_mem (m : Mode) : (s.setMode m).mem = s.mem := rfl
@[simp] theorem State.setMode_fb (m : Mode) : (s.setMode m).fb = s.fb := rfl
@[simp] theorem State.setMode_key (m : Mode) : (s.setMode m).key = s.key := rfl
@[simp] theorem State.setMode_mode (m : Mode) : (s.setMode m).mode = m := rfl
@[simp] theorem State.setMode_draws (m : Mode) : (s.setMode m).draws = s.draws := rfl
@[simp] theorem State.setMode_schedule (m : Mode) : (s.setMode m).schedule = s.schedule := rfl
@[simp] theorem State.setMode_reply (m : Mode) : (s.setMode m).reply = s.reply := rfl

@[simp] theorem State.drawn_v : (s.drawn).v = s.v := rfl
@[simp] theorem State.drawn_i : (s.drawn).i = s.i := rfl
@[simp] theorem State.drawn_pc : (s.drawn).pc = s.pc := rfl
@[simp] theorem State.drawn_sp : (s.drawn).sp = s.sp := rfl
@[simp] theorem State.drawn_stack : (s.drawn).stack = s.stack := rfl
@[simp] theorem State.drawn_dt : (s.drawn).dt = s.dt := rfl
@[simp] theorem State.drawn_st : (s.drawn).st = s.st := rfl
@[simp] theorem State.drawn_mem : (s.drawn).mem = s.mem := rfl
@[simp] theorem State.drawn_fb : (s.drawn).fb = s.fb := rfl
@[simp] theorem State.drawn_key : (s.drawn).key = s.key := rfl
@[simp] theorem State.drawn_mode : (s.drawn).mode = s.mode := rfl
@[simp] theorem State.drawn_draws : (s.drawn).draws = s.draws + 1 := rfl
@[simp] theorem State.drawn_schedule : (s.drawn).schedule = s.schedule := rfl
@[simp] theorem State.drawn_reply : (s.drawn).reply = s.reply := rfl

@[simp] theorem raiseFatal_v (f : Fatal) : (raiseFatal f s).v = s.v := rfl
@[simp] theorem raiseFatal_i (f : Fatal) : (raiseFatal f s).i = s.i := rfl
@[simp] theorem raiseFatal_pc (f : Fatal) : (raiseFatal f s).pc = s.pc := rfl
@[simp] theorem raiseFatal_sp (f : Fatal) : (raiseFatal f s).sp = s.sp := rfl
@[simp] theorem raiseFatal_stack (f : Fatal) : (raiseFatal f s).stack = s.stack := rfl
@[simp] theorem raiseFatal_dt (f : Fatal) : (raiseFatal f s).dt = s.dt := rfl
@[simp] theorem raiseFatal_st (f : Fatal) : (raiseFatal f s).st = s.st := rfl
@[simp] theorem raiseFatal_mem (f : Fatal) : (raiseFatal f s).mem = s.mem := rfl
@[simp] theorem raiseFatal_fb (f : Fatal) : (raiseFatal f s).fb = s.fb := rfl
@[simp] theorem raiseFatal_key (f : Fatal) : (raiseFatal f s).key = s.key := rfl
@[simp] theorem raiseFatal_mode (f : Fatal) : (raiseFatal f s).mode = .halted f.cause f.info := rfl
@[simp] theorem raiseFatal_draws (f : Fatal) : (raiseFatal f s).draws = s.draws := rfl
@[simp] theorem raiseFatal_schedule (f : Fatal) : (raiseFatal f s).schedule = s.schedule := rfl
@[simp] theorem raiseFatal_reply (f : Fatal) : (raiseFatal f s).reply = s.reply := rfl

@[simp] theorem State.skipIf_v (c : Bool) : (s.skipIf c).v = s.v := by cases c <;> rfl
@[simp] theorem State.skipIf_i (c : Bool) : (s.skipIf c).i = s.i := by cases c <;> rfl
@[simp] theorem State.skipIf_pc (c : Bool) : (s.skipIf c).pc = if c then s.pc + 2 else s.pc := by
  cases c <;> rfl
@[simp] theorem State.skipIf_sp (c : Bool) : (s.skipIf c).sp = s.sp := by cases c <;> rfl
@[simp] theorem State.skipIf_stack (c : Bool) : (s.skipIf c).stack = s.stack := by cases c <;> rfl
@[simp] theorem State.skipIf_dt (c : Bool) : (s.skipIf c).dt = s.dt := by cases c <;> rfl
@[simp] theorem State.skipIf_st (c : Bool) : (s.skipIf c).st = s.st := by cases c <;> rfl
@[simp] theorem State.skipIf_mem (c : Bool) : (s.skipIf c).mem = s.mem := by cases c <;> rfl
@[simp] theorem State.skipIf_fb (c : Bool) : (s.skipIf c).fb = s.fb := by cases c <;> rfl
@[simp] theorem State.skipIf_key (c : Bool) : (s.skipIf c).key = s.key := by cases c <;> rfl
@[simp] theorem State.skipIf_mode (c : Bool) : (s.skipIf c).mode = s.mode := by cases c <;> rfl
@[simp] theorem State.skipIf_draws (c : Bool) : (s.skipIf c).draws = s.draws := by cases c <;> rfl
@[simp] theorem State.skipIf_schedule (c : Bool) : (s.skipIf c).schedule = s.schedule := by cases c <;> rfl
@[simp] theorem State.skipIf_reply (c : Bool) : (s.skipIf c).reply = s.reply := by cases c <;> rfl

@[simp] theorem State.setFlagged_i (x : Reg) (g b : Byte) : (s.setFlagged x g b).i = s.i := rfl
@[simp] theorem State.setFlagged_pc (x : Reg) (g b : Byte) : (s.setFlagged x g b).pc = s.pc := rfl
@[simp] theorem State.setFlagged_sp (x : Reg) (g b : Byte) : (s.setFlagged x g b).sp = s.sp := rfl
@[simp] theorem State.setFlagged_stack (x : Reg) (g b : Byte) : (s.setFlagged x g b).stack = s.stack := rfl
@[simp] theorem State.setFlagged_dt (x : Reg) (g b : Byte) : (s.setFlagged x g b).dt = s.dt := rfl
@[simp] theorem State.setFlagged_st (x : Reg) (g b : Byte) : (s.setFlagged x g b).st = s.st := rfl
@[simp] theorem State.setFlagged_mem (x : Reg) (g b : Byte) : (s.setFlagged x g b).mem = s.mem := rfl
@[simp] theorem State.setFlagged_fb (x : Reg) (g b : Byte) : (s.setFlagged x g b).fb = s.fb := rfl
@[simp] theorem State.setFlagged_key (x : Reg) (g b : Byte) : (s.setFlagged x g b).key = s.key := rfl
@[simp] theorem State.setFlagged_mode (x : Reg) (g b : Byte) : (s.setFlagged x g b).mode = s.mode := rfl
@[simp] theorem State.setFlagged_draws (x : Reg) (g b : Byte) : (s.setFlagged x g b).draws = s.draws := rfl
@[simp] theorem State.setFlagged_schedule (x : Reg) (g b : Byte) : (s.setFlagged x g b).schedule = s.schedule := rfl
@[simp] theorem State.setFlagged_reply (x : Reg) (g b : Byte) : (s.setFlagged x g b).reply = s.reply := rfl

/-- What a register reads after a write of a register. -/
theorem State.getV_setV (x y : Reg) (b : Byte) : (s.setV x b).getV y = if y = x then b else s.getV y := by
  simp only [State.getV, State.setV, Vector.getElem_set, Fin.ext_iff, eq_comm]

@[simp] theorem State.getV_setV_self (x : Reg) (b : Byte) : (s.setV x b).getV x = b := by simp [State.getV_setV]

/-- What a register reads after flag and result are written: the result stands where both go to VF. -/
theorem State.getV_setFlagged (x y : Reg) (g b : Byte) :
    (s.setFlagged x g b).getV y = if y = x then b else if y = vf then g else s.getV y := by
  simp only [State.setFlagged, State.getV_setV]

/-- Reading a register looks at v alone. -/
theorem State.getV_congr {s t : State} (h : t.v = s.v) (x : Reg) : t.getV x = s.getV x := by
  simp only [State.getV, h]

@[simp] theorem State.getV_setI (w : Word) (x : Reg) : (s.setI w).getV x = s.getV x := rfl
@[simp] theorem State.getV_setPc (w : Word) (x : Reg) : (s.setPc w).getV x = s.getV x := rfl
@[simp] theorem State.getV_advance (x : Reg) : s.advance.getV x = s.getV x := rfl
@[simp] theorem State.getV_setMem (m : Memory) (x : Reg) : (s.setMem m).getV x = s.getV x := rfl
@[simp] theorem State.getV_setFb (fb : Framebuffer) (x : Reg) : (s.setFb fb).getV x = s.getV x := rfl
@[simp] theorem State.getV_setMode (m : Mode) (x : Reg) : (s.setMode m).getV x = s.getV x := rfl
@[simp] theorem State.getV_drawn (x : Reg) : s.drawn.getV x = s.getV x := rfl
@[simp] theorem State.getV_raiseFatal (f : Fatal) (x : Reg) : (raiseFatal f s).getV x = s.getV x := rfl
@[simp] theorem State.getV_skipIf (c : Bool) (x : Reg) : (s.skipIf c).getV x = s.getV x := by cases c <;> rfl

/-- The base address is I as a natural. -/
theorem State.base_eq : s.base = s.i.toNat := rfl

/-- A register write changes v alone. -/
theorem State.setV_frame (x : Reg) (b : Byte) : s.setV x b = { s with v := (s.setV x b).v } := rfl

/-- A flag and result write changes v alone. -/
theorem State.setFlagged_frame (x : Reg) (g b : Byte) :
    s.setFlagged x g b = { s with v := (s.setFlagged x g b).v } := rfl

/-- A skip changes PC alone. -/
theorem State.skipIf_frame (c : Bool) : s.skipIf c = { s with pc := if c then s.pc + 2 else s.pc } := by
  cases c <;> rfl

/-- A block of register writes changes v alone. -/
theorem State.setVs_frame (s : State) (ps : List (Reg × Byte)) : s.setVs ps = { s with v := (s.setVs ps).v } := by
  induction ps generalizing s with
  | nil => rfl
  | cons p ps ih => rw [State.setVs, ih]; rfl

/-- A register outside the block keeps its value. -/
theorem State.getV_setVs_of_not_mem (s : State) (ps : List (Reg × Byte)) (r : Reg) (h : r ∉ ps.map Prod.fst) :
    (s.setVs ps).getV r = s.getV r := by
  induction ps generalizing s with
  | nil => rfl
  | cons p ps ih =>
    simp only [List.map_cons, List.mem_cons, not_or] at h
    rw [State.setVs, ih _ h.2, State.getV_setV, if_neg h.1]

/-- A register of the block, each listed once, reads as the byte beside it. -/
theorem State.getV_setVs_of_mem (s : State) (ps : List (Reg × Byte)) (hn : (ps.map Prod.fst).Nodup) (p : Reg × Byte)
    (h : p ∈ ps) : (s.setVs ps).getV p.1 = p.2 := by
  induction ps generalizing s with
  | nil => simp at h
  | cons q ps ih =>
    simp only [List.map_cons, List.nodup_cons] at hn
    rcases List.mem_cons.mp h with rfl | h
    · rw [State.setVs, State.getV_setVs_of_not_mem _ _ _ hn.1, State.getV_setV_self]
    · rw [State.setVs, ih _ hn.2 h]

end Sys2Proof.Machine
end

