-- ==== Sys2Proof/Laws/Ops.lean ====
section
/-! SUPPORT. What each shared operation can answer, said once: committing, the stack, the keys, the register block, the
fetch. -/

namespace Sys2Proof.Machine

/-- Committing always answers a next state: the one computed, or the fatal condition taken on the old one. -/
theorem commit_cases {s t : State} {r : Except Fatal State} (h : commit s r = .next t) :
    r = .ok t ∨ ∃ f, r = .error f ∧ t = raiseFatal f s := by
  cases r with
  | ok u => left; simpa [commit] using h
  | error f => right; exact ⟨f, rfl, by simpa [commit] using h.symm⟩

@[simp] theorem commit_ok (s t : State) : commit s (.ok t) = .next t := rfl
@[simp] theorem commit_error (s : State) (f : Fatal) : commit s (.error f) = .next (raiseFatal f s) := rfl

/-- A push below the full stack: the slot at SP is written and SP rises by one. -/
theorem push_of_lt {s : State} (a : Word) (h : s.sp.val < 16) :
    push a s = .ok { s with stack := s.stack.set s.sp.val a, sp := ⟨s.sp.val + 1, by omega⟩ } := by
  rw [push, dif_pos h]

/-- A push on the full stack is fatal. -/
theorem push_of_full {s : State} (a : Word) (h : s.sp.val = 16) : push a s = .error ⟨.stackOverflow, 16⟩ := by
  rw [push, dif_neg (by omega), h]

/-- A pop of a stack that is not empty: the slot below SP, and SP falls by one. -/
theorem pop_of_pos {s : State} (h : 0 < s.sp.val) :
    pop s = .ok (s.stack[s.sp.val - 1]'(by omega), { s with sp := ⟨s.sp.val - 1, by omega⟩ }) := by
  rw [pop, if_neg (by omega)]

/-- A pop of the empty stack is fatal. -/
theorem pop_of_empty {s : State} (h : s.sp.val = 0) : pop s = .error ⟨.stackUnderflow, 0⟩ := by
  rw [pop, if_pos h]

/-- A key number in range reads KEY. -/
theorem isDown_of_lt {s : State} {k : Nat} (h : k < 16) : isDown s k = .ok s.key[k] := by rw [isDown, dif_pos h]

/-- A key number out of range is fatal. -/
theorem isDown_of_ge {s : State} {k : Nat} (h : 16 ≤ k) : isDown s k = .error ⟨.keyOob, k⟩ := by
  rw [isDown, dif_neg (by omega)]

/-- The block of Vx in the inclusive setting is V0..Vx. -/
theorem mem_blockRegs_inclusive (x r : Reg) : r ∈ blockRegs true x ↔ r ≤ x := by
  revert x r; decide

theorem blockRegs_nodup (b : Bool) (x : Reg) : (blockRegs b x).Nodup := by
  revert b x; decide

theorem length_blockRegs (b : Bool) (x : Reg) : (blockRegs b x).length = blockCount b x := by
  revert b x; decide

/-- The k-th register of a block is Vk. -/
theorem getElem_blockRegs (b : Bool) (x : Reg) (k : Nat) (h : k < (blockRegs b x).length) :
    ((blockRegs b x)[k]).val = k := by
  have h16 : k < 16 := by
    have hle : (blockRegs b x).length ≤ 16 := by clear h; revert b x; decide
    omega
  simp only [blockRegs, List.getElem_take]
  have : ∀ k : Fin 16, (allRegs[k.val]'(by simp [allRegs])).val = k.val := by decide
  exact this ⟨k, h16⟩

/-- A fetch inside the memory answers the big-endian word at PC. -/
theorem fetch_of_lt {s : State} (h : s.pc.toNat + 1 < 4096) :
    fetch s = .ok (s.mem.read s.pc.toNat ++ s.mem.read (s.pc.toNat + 1)) := by
  rw [fetch, memRead2, if_pos h]

/-- A fetch outside the memory is fatal, with PC recorded. -/
theorem fetch_of_ge {s : State} (h : 4096 ≤ s.pc.toNat + 1) : fetch s = .error ⟨.memOob, s.pc.toNat⟩ := by
  rw [fetch, memRead2, if_neg (by show ¬ s.pc.toNat + 1 < 4096; omega)]

/-- A step of the schedule's head, and of the core where nothing is scheduled. -/
theorem step_of_scheduled (s : State) (op : Operation) (rest : List Operation) (h : s.schedule = op :: rest) :
    step s = perform op { s with schedule := rest } := by rw [step, h]

theorem step_of_unscheduled (s : State) (h : s.schedule = []) : step s = coreStep s := by rw [step, h]

/-- What a step of the core can do: nothing outside RUN, a fatal fetch, or the fetched word run on the advanced state. -/
theorem coreStep_cases (s : State) :
    (s.mode ≠ .run ∧ coreStep s = .next s) ∨
    (s.mode = .run ∧ 4096 ≤ s.pc.toNat + 1 ∧ coreStep s = .next (raiseFatal ⟨.memOob, s.pc.toNat⟩ s)) ∨
    (s.mode = .run ∧ s.pc.toNat + 1 < 4096 ∧
      coreStep s = runWord (s.mem.read s.pc.toNat ++ s.mem.read (s.pc.toNat + 1)) s.advance) := by
  by_cases hm : s.mode = .run
  · by_cases h : s.pc.toNat + 1 < 4096
    · right; right; exact ⟨hm, h, by simp [coreStep, hm, fetch_of_lt h]⟩
    · right; left; exact ⟨hm, by omega, by simp [coreStep, hm, fetch_of_ge (Nat.le_of_not_lt h)]⟩
  · left
    refine ⟨hm, ?_⟩
    rw [coreStep]
    split
    · next h => exact absurd h hm
    · rfl

end Sys2Proof.Machine
end

