-- ==== Sys2Proof/Laws/Exec.lean ====
section
/-! SUPPORT. The meanings that can take a fatal condition, each as one equation: the fatal condition where it holds, and
the completed state otherwise. A proof about one of them cites its equation and does not unfold its accesses. -/

namespace Sys2Proof.Machine

theorem execRet_eq (s : State) : execRet s = .next (
    if _ : s.sp.val = 0 then raiseFatal ⟨.stackUnderflow, 0⟩ s
    else { s with pc := s.stack[s.sp.val - 1]'(by omega), sp := ⟨s.sp.val - 1, by omega⟩ }) := by
  by_cases h : s.sp.val = 0
  · rw [execRet, pop_of_empty h, dif_pos h]; rfl
  · rw [execRet, pop_of_pos (Nat.pos_of_ne_zero h), dif_neg h]; rfl

theorem execCall_eq (nnn : Addr) (s : State) : execCall nnn s = .next (
    if h : s.sp.val < 16 then
      { s with pc := addrWord nnn, stack := s.stack.set s.sp.val s.pc, sp := ⟨s.sp.val + 1, by omega⟩ }
    else raiseFatal ⟨.stackOverflow, 16⟩ s) := by
  by_cases h : s.sp.val < 16
  · rw [execCall, push_of_lt _ h, dif_pos h]; rfl
  · rw [execCall, push_of_full _ (by omega), dif_neg h]; rfl

theorem execLdBcd_eq (x : Reg) (s : State) : execLdBcd x s = .next (
    if s.i.toNat + 3 ≤ 4096 then s.setMem (s.mem.writeBytes s.i.toNat (bcdDigits (s.getV x)))
    else raiseFatal ⟨.memOob, max s.i.toNat 4096⟩ s) := by
  have hc : (bcdDigits (s.getV x) = [] ∨ s.i.toNat + (bcdDigits (s.getV x)).length ≤ 4096) ↔ s.i.toNat + 3 ≤ 4096 := by
    simp [bcdDigits]
  rw [execLdBcd, State.base_eq, memWriteBlock_eq, if_congr hc rfl rfl]
  split <;> rfl

theorem execStoreRegs_eq (x : Reg) (s : State) : execStoreRegs x s = .next (
    if s.i.toNat + x.val < 4096 then s.setMem (s.mem.writeBytes s.i.toNat (s.getVs (blockRegs true x)))
    else raiseFatal ⟨.memOob, max s.i.toNat 4096⟩ s) := by
  have hl : (s.getVs (blockRegs true x)).length = x.val + 1 := by simp [State.getVs, length_blockRegs, blockCount]
  have hc : (s.getVs (blockRegs true x) = [] ∨ s.i.toNat + (s.getVs (blockRegs true x)).length ≤ 4096) ↔
      s.i.toNat + x.val < 4096 := by
    rw [← List.length_eq_zero_iff, hl]; omega
  rw [execStoreRegs, storeBlock, regBlockInclusive, State.base_eq, memWriteBlock_eq, if_congr hc rfl rfl]
  split <;> rfl

theorem execLoadRegs_eq (x : Reg) (s : State) : execLoadRegs x s = .next (
    if s.i.toNat + x.val < 4096 then
      s.setVs ((blockRegs true x).zip ((List.range' s.i.toNat (x.val + 1)).map s.mem.read))
    else raiseFatal ⟨.memOob, max s.i.toNat 4096⟩ s) := by
  have hc : (blockCount true x = 0 ∨ s.i.toNat + blockCount true x ≤ 4096) ↔ s.i.toNat + x.val < 4096 := by
    simp [blockCount]; omega
  rw [execLoadRegs, loadBlock, regBlockInclusive, State.base_eq, memReadBlock_eq, if_congr hc rfl rfl]
  split <;> rfl

theorem execDrw_eq (x y : Reg) (n : Nibble) (s : State) : execDrw x y n s = .next (
    if n.toNat = 0 ∨ s.i.toNat + n.toNat ≤ 4096 then
      (s.setFb (drawSprite s.fb (s.getV x) (s.getV y) ((List.range' s.i.toNat n.toNat).map s.mem.read)).1).setV vf
        (flagByte (drawSprite s.fb (s.getV x) (s.getV y) ((List.range' s.i.toNat n.toNat).map s.mem.read)).2)
    else raiseFatal ⟨.memOob, max s.i.toNat 4096⟩ s) := by
  rw [execDrw, State.base_eq, memReadBlock_eq]
  split <;> rfl

theorem execSkp_eq (x : Reg) (s : State) : execSkp x s = .next (
    if h : (s.getV x).toNat < 16 then s.skipIf s.key[(s.getV x).toNat]
    else raiseFatal ⟨.keyOob, (s.getV x).toNat⟩ s) := by
  by_cases h : (s.getV x).toNat < 16
  · rw [execSkp, isDown_of_lt h, dif_pos h]; rfl
  · rw [execSkp, isDown_of_ge (Nat.le_of_not_lt h), dif_neg h]; rfl

theorem execSknp_eq (x : Reg) (s : State) : execSknp x s = .next (
    if h : (s.getV x).toNat < 16 then s.skipIf (!s.key[(s.getV x).toNat])
    else raiseFatal ⟨.keyOob, (s.getV x).toNat⟩ s) := by
  by_cases h : (s.getV x).toNat < 16
  · rw [execSknp, isDown_of_lt h, dif_pos h]; rfl
  · rw [execSknp, isDown_of_ge (Nat.le_of_not_lt h), dif_neg h]; rfl

end Sys2Proof.Machine
end

