-- ==== Sys2Proof/Laws/PerInstr.lean ====
section
/-! SUPPORT. The family EncodedWord: an instruction's word has the pattern of the instruction's own row of the opcode
map (30_encoding.md R65), one lemma per constructor. -/

namespace Sys2Proof.Laws

/-- The instruction's row is a row of the opcode map, and its word has that row's fixed bits. -/
def EncodedWord.Statement (i : Instr) : Prop := i.row ∈ opcodeTable ∧ i.row.accepts (encode i) = true

/-- Fixed bits of format A. -/
theorem formatA_mask (g : Nibble) (nnn : Addr) : formatA g nnn &&& 0xF000 = g ++ (0 : Addr) := by
  have : (0xF000 : Word) = (0xF : Nibble) ++ (0 : Addr) := by decide
  rw [this, formatA, BitVec.and_append]
  congr 1
  · revert g; decide
  · simp

/-- Fixed bits of format XK without a sub-opcode. -/
theorem formatXK_mask (g : Nibble) (x : Reg) (kk : Byte) :
    formatXK g x kk &&& 0xF000 = (g ++ (0 : Nibble)) ++ (0 : Byte) := by
  have : (0xF000 : Word) = ((0xF : Nibble) ++ (0 : Nibble)) ++ (0 : Byte) := by decide
  rw [this, formatXK, BitVec.and_append, BitVec.and_append]
  congr 1
  · congr 1
    · revert g; decide
    · simp
  · simp

/-- Fixed bits of format X, whose low byte is a sub-opcode. -/
theorem formatXK_mask_low (g : Nibble) (x : Reg) (kk : Byte) :
    formatXK g x kk &&& 0xF0FF = (g ++ (0 : Nibble)) ++ kk := by
  have : (0xF0FF : Word) = ((0xF : Nibble) ++ (0 : Nibble)) ++ (0xFF : Byte) := by decide
  rw [this, formatXK, BitVec.and_append, BitVec.and_append]
  congr 1
  · congr 1
    · revert g; decide
    · simp
  · exact BitVec.and_allOnes

/-- Fixed bits of format XY, whose low nibble is a sub-opcode. -/
theorem formatXY_mask_low (g : Nibble) (x y : Reg) (n : Nibble) :
    formatXY g x y n &&& 0xF00F = ((g ++ (0 : Nibble)) ++ (0 : Nibble)) ++ n := by
  have : (0xF00F : Word) = (((0xF : Nibble) ++ (0 : Nibble)) ++ (0 : Nibble)) ++ (0xF : Nibble) := by decide
  rw [this, formatXY, BitVec.and_append, BitVec.and_append, BitVec.and_append]
  congr 1
  · congr 1
    · congr 1
      · revert g; decide
      · simp
    · simp
  · exact BitVec.and_allOnes

/-- Fixed bits of format XYN, whose low nibble is an operand. -/
theorem formatXY_mask (g : Nibble) (x y : Reg) (n : Nibble) :
    formatXY g x y n &&& 0xF000 = ((g ++ (0 : Nibble)) ++ (0 : Nibble)) ++ (0 : Nibble) := by
  have : (0xF000 : Word) = (((0xF : Nibble) ++ (0 : Nibble)) ++ (0 : Nibble)) ++ (0 : Nibble) := by decide
  rw [this, formatXY, BitVec.and_append, BitVec.and_append, BitVec.and_append]
  congr 1
  · congr 1
    · congr 1
      · revert g; decide
      · simp
    · simp
  · simp

theorem EncodedWord.cls : EncodedWord.Statement .cls := ⟨by decide, by decide⟩

theorem EncodedWord.ret : EncodedWord.Statement .ret := ⟨by decide, by decide⟩

theorem EncodedWord.jp (nnn : Addr) : EncodedWord.Statement (.jp nnn) :=
  ⟨by simp [Instr.row, opcodeTable], by rw [Row.accepts, encode, Instr.row, Row.jp, formatA_mask]; decide⟩

theorem EncodedWord.call (nnn : Addr) : EncodedWord.Statement (.call nnn) :=
  ⟨by simp [Instr.row, opcodeTable], by rw [Row.accepts, encode, Instr.row, Row.call, formatA_mask]; decide⟩

theorem EncodedWord.seImm (x : Reg) (kk : Byte) : EncodedWord.Statement (.seImm x kk) :=
  ⟨by simp [Instr.row, opcodeTable], by rw [Row.accepts, encode, Instr.row, Row.seImm, formatXK_mask]; decide⟩

theorem EncodedWord.sneImm (x : Reg) (kk : Byte) : EncodedWord.Statement (.sneImm x kk) :=
  ⟨by simp [Instr.row, opcodeTable], by rw [Row.accepts, encode, Instr.row, Row.sneImm, formatXK_mask]; decide⟩

theorem EncodedWord.seReg (x y : Reg) : EncodedWord.Statement (.seReg x y) :=
  ⟨by simp [Instr.row, opcodeTable], by rw [Row.accepts, encode, Instr.row, Row.seReg, formatXY_mask_low]; decide⟩

theorem EncodedWord.ldImm (x : Reg) (kk : Byte) : EncodedWord.Statement (.ldImm x kk) :=
  ⟨by simp [Instr.row, opcodeTable], by rw [Row.accepts, encode, Instr.row, Row.ldImm, formatXK_mask]; decide⟩

theorem EncodedWord.addImm (x : Reg) (kk : Byte) : EncodedWord.Statement (.addImm x kk) :=
  ⟨by simp [Instr.row, opcodeTable], by rw [Row.accepts, encode, Instr.row, Row.addImm, formatXK_mask]; decide⟩

theorem EncodedWord.ldReg (x y : Reg) : EncodedWord.Statement (.ldReg x y) :=
  ⟨by simp [Instr.row, opcodeTable], by rw [Row.accepts, encode, Instr.row, Row.ldReg, formatXY_mask_low]; decide⟩

theorem EncodedWord.orReg (x y : Reg) : EncodedWord.Statement (.orReg x y) :=
  ⟨by simp [Instr.row, opcodeTable], by rw [Row.accepts, encode, Instr.row, Row.orReg, formatXY_mask_low]; decide⟩

theorem EncodedWord.andReg (x y : Reg) : EncodedWord.Statement (.andReg x y) :=
  ⟨by simp [Instr.row, opcodeTable], by rw [Row.accepts, encode, Instr.row, Row.andReg, formatXY_mask_low]; decide⟩

theorem EncodedWord.xorReg (x y : Reg) : EncodedWord.Statement (.xorReg x y) :=
  ⟨by simp [Instr.row, opcodeTable], by rw [Row.accepts, encode, Instr.row, Row.xorReg, formatXY_mask_low]; decide⟩

theorem EncodedWord.addReg (x y : Reg) : EncodedWord.Statement (.addReg x y) :=
  ⟨by simp [Instr.row, opcodeTable], by rw [Row.accepts, encode, Instr.row, Row.addReg, formatXY_mask_low]; decide⟩

theorem EncodedWord.subReg (x y : Reg) : EncodedWord.Statement (.subReg x y) :=
  ⟨by simp [Instr.row, opcodeTable], by rw [Row.accepts, encode, Instr.row, Row.subReg, formatXY_mask_low]; decide⟩

theorem EncodedWord.shr (x y : Reg) : EncodedWord.Statement (.shr x y) :=
  ⟨by simp [Instr.row, opcodeTable], by rw [Row.accepts, encode, Instr.row, Row.shr, formatXY_mask_low]; decide⟩

theorem EncodedWord.subn (x y : Reg) : EncodedWord.Statement (.subn x y) :=
  ⟨by simp [Instr.row, opcodeTable], by rw [Row.accepts, encode, Instr.row, Row.subn, formatXY_mask_low]; decide⟩

theorem EncodedWord.shl (x y : Reg) : EncodedWord.Statement (.shl x y) :=
  ⟨by simp [Instr.row, opcodeTable], by rw [Row.accepts, encode, Instr.row, Row.shl, formatXY_mask_low]; decide⟩

theorem EncodedWord.sneReg (x y : Reg) : EncodedWord.Statement (.sneReg x y) :=
  ⟨by simp [Instr.row, opcodeTable], by rw [Row.accepts, encode, Instr.row, Row.sneReg, formatXY_mask_low]; decide⟩

theorem EncodedWord.ldI (nnn : Addr) : EncodedWord.Statement (.ldI nnn) :=
  ⟨by simp [Instr.row, opcodeTable], by rw [Row.accepts, encode, Instr.row, Row.ldI, formatA_mask]; decide⟩

theorem EncodedWord.jpV0 (nnn : Addr) : EncodedWord.Statement (.jpV0 nnn) :=
  ⟨by simp [Instr.row, opcodeTable], by rw [Row.accepts, encode, Instr.row, Row.jpV0, formatA_mask]; decide⟩

theorem EncodedWord.rnd (x : Reg) (kk : Byte) : EncodedWord.Statement (.rnd x kk) :=
  ⟨by simp [Instr.row, opcodeTable], by rw [Row.accepts, encode, Instr.row, Row.rnd, formatXK_mask]; decide⟩

theorem EncodedWord.drw (x y : Reg) (n : Nibble) : EncodedWord.Statement (.drw x y n) :=
  ⟨by simp [Instr.row, opcodeTable], by rw [Row.accepts, encode, Instr.row, Row.drw, formatXY_mask]; decide⟩

theorem EncodedWord.skp (x : Reg) : EncodedWord.Statement (.skp x) :=
  ⟨by simp [Instr.row, opcodeTable], by rw [Row.accepts, encode, Instr.row, Row.skp, formatXK_mask_low]; decide⟩

theorem EncodedWord.sknp (x : Reg) : EncodedWord.Statement (.sknp x) :=
  ⟨by simp [Instr.row, opcodeTable], by rw [Row.accepts, encode, Instr.row, Row.sknp, formatXK_mask_low]; decide⟩

theorem EncodedWord.ldVxDt (x : Reg) : EncodedWord.Statement (.ldVxDt x) :=
  ⟨by simp [Instr.row, opcodeTable], by rw [Row.accepts, encode, Instr.row, Row.ldVxDt, formatXK_mask_low]; decide⟩

theorem EncodedWord.ldVxKey (x : Reg) : EncodedWord.Statement (.ldVxKey x) :=
  ⟨by simp [Instr.row, opcodeTable], by rw [Row.accepts, encode, Instr.row, Row.ldVxKey, formatXK_mask_low]; decide⟩

theorem EncodedWord.ldDtVx (x : Reg) : EncodedWord.Statement (.ldDtVx x) :=
  ⟨by simp [Instr.row, opcodeTable], by rw [Row.accepts, encode, Instr.row, Row.ldDtVx, formatXK_mask_low]; decide⟩

theorem EncodedWord.ldStVx (x : Reg) : EncodedWord.Statement (.ldStVx x) :=
  ⟨by simp [Instr.row, opcodeTable], by rw [Row.accepts, encode, Instr.row, Row.ldStVx, formatXK_mask_low]; decide⟩

theorem EncodedWord.addI (x : Reg) : EncodedWord.Statement (.addI x) :=
  ⟨by simp [Instr.row, opcodeTable], by rw [Row.accepts, encode, Instr.row, Row.addI, formatXK_mask_low]; decide⟩

theorem EncodedWord.ldFont (x : Reg) : EncodedWord.Statement (.ldFont x) :=
  ⟨by simp [Instr.row, opcodeTable], by rw [Row.accepts, encode, Instr.row, Row.ldFont, formatXK_mask_low]; decide⟩

theorem EncodedWord.ldBcd (x : Reg) : EncodedWord.Statement (.ldBcd x) :=
  ⟨by simp [Instr.row, opcodeTable], by rw [Row.accepts, encode, Instr.row, Row.ldBcd, formatXK_mask_low]; decide⟩

theorem EncodedWord.storeRegs (x : Reg) : EncodedWord.Statement (.storeRegs x) :=
  ⟨by simp [Instr.row, opcodeTable], by rw [Row.accepts, encode, Instr.row, Row.storeRegs, formatXK_mask_low]; decide⟩

theorem EncodedWord.loadRegs (x : Reg) : EncodedWord.Statement (.loadRegs x) :=
  ⟨by simp [Instr.row, opcodeTable], by rw [Row.accepts, encode, Instr.row, Row.loadRegs, formatXK_mask_low]; decide⟩

end Sys2Proof.Laws
end

