-- ==== Sys2Proof/Tests/Slice0.lean ====
section
/-! SUPPORT. The model's own tests. Expected results are the vectors of 95_test_vectors.md, named in each comment, or a
rule's own example. The last part gives, for every statement with hypotheses, a state and operands that meet them. -/

namespace Sys2Proof.Tests

open Sys2Proof.Machine

/-! ### Well-formedness of words: one ill-formed word for each check (R66) -/

theorem test_group0_refuses_other_words : wordWellFormed 0x0000 = false ∧ wordWellFormed 0x0123 = false := by decide
theorem test_group5_refuses_low_nibble : wordWellFormed 0x5121 = false := by decide
theorem test_group8_refuses_low_nibble : wordWellFormed 0x8128 = false ∧ wordWellFormed 0x812F = false := by decide
theorem test_group9_refuses_low_nibble : wordWellFormed 0x9121 = false := by decide
theorem test_groupE_refuses_low_byte : wordWellFormed 0xE100 = false := by decide
theorem test_groupF_refuses_low_byte : wordWellFormed 0xF100 = false ∧ wordWellFormed 0xF1FF = false := by decide

/-! ### Decoding: every constructor from a word written out from its pattern (R65) -/

/-- Group 0 and the address formats: 00E0, 00EE, 1nnn, 2nnn, Annn, Bnnn. -/
theorem test_decode_address :
    decodeWord 0x00E0 = .ok .cls ∧ decodeWord 0x00EE = .ok .ret ∧ decodeWord 0x1234 = .ok (.jp 0x234) ∧
    decodeWord 0x2ABC = .ok (.call 0xABC) ∧ decodeWord 0xA20C = .ok (.ldI 0x20C) ∧
    decodeWord 0xB300 = .ok (.jpV0 0x300) := by decide

/-- Register and byte: 3xkk, 4xkk, 6xkk, 7xkk, Cxkk. -/
theorem test_decode_register_byte :
    decodeWord 0x332A = .ok (.seImm 3 0x2A) ∧ decodeWord 0x432A = .ok (.sneImm 3 0x2A) ∧
    decodeWord 0x6A3E = .ok (.ldImm 10 0x3E) ∧ decodeWord 0x710A = .ok (.addImm 1 0x0A) ∧
    decodeWord 0xC30F = .ok (.rnd 3 0x0F) := by decide

/-- Two registers: 5xy0, 8xy0 to 8xy7, 8xyE, 9xy0, Dxyn. -/
theorem test_decode_two_registers :
    decodeWord 0x5120 = .ok (.seReg 1 2) ∧ decodeWord 0x8120 = .ok (.ldReg 1 2) ∧
    decodeWord 0x8121 = .ok (.orReg 1 2) ∧ decodeWord 0x8122 = .ok (.andReg 1 2) ∧
    decodeWord 0x8123 = .ok (.xorReg 1 2) ∧ decodeWord 0x8124 = .ok (.addReg 1 2) ∧
    decodeWord 0x8125 = .ok (.subReg 1 2) ∧ decodeWord 0x8126 = .ok (.shr 1 2) ∧
    decodeWord 0x8127 = .ok (.subn 1 2) ∧ decodeWord 0x812E = .ok (.shl 1 2) ∧
    decodeWord 0x9120 = .ok (.sneReg 1 2) ∧ decodeWord 0xD01F = .ok (.drw 0 1 15) := by decide

/-- One register: Ex9E, ExA1, Fx07 to Fx65. -/
theorem test_decode_one_register :
    decodeWord 0xE49E = .ok (.skp 4) ∧ decodeWord 0xE4A1 = .ok (.sknp 4) ∧ decodeWord 0xF207 = .ok (.ldVxDt 2) ∧
    decodeWord 0xF30A = .ok (.ldVxKey 3) ∧ decodeWord 0xF215 = .ok (.ldDtVx 2) ∧
    decodeWord 0xF218 = .ok (.ldStVx 2) ∧ decodeWord 0xF21E = .ok (.addI 2) ∧ decodeWord 0xF329 = .ok (.ldFont 3) ∧
    decodeWord 0xF033 = .ok (.ldBcd 0) ∧ decodeWord 0xF255 = .ok (.storeRegs 2) ∧
    decodeWord 0xF265 = .ok (.loadRegs 2) := by decide

/-- The first byte is the high byte (S13), and the rest of the bytes is left. -/
theorem test_decode_bytes : decode [0x6A, 0x3E, 0x77] = .ok (.ldImm 10 0x3E, [0x77]) ∧
    decode [0x6A] = .error .truncated := by decide

theorem test_decodeTableWord : decodeTableWord 16 0xD01F = some (.drw 0 1 15) ∧ decodeTableWord 16 0x5121 = none := by
  decide

theorem test_encode_bytes : encodeBytes (.subReg 1 2) = [0x81, 0x25] := by decide

/-! ### One step -/

/-- The step of a state with the given word placed as a program (PC 0x200), seen through f. -/
def after {α : Type} (s : State) (w : Nat) (f : State → α) : Option α :=
  match step (s.withFetchWord 16 w) with
  | .next t => some (f t)
  | _ => none

/-- The reset state with some registers set. -/
def regs (rs : List (Reg × Byte)) : State := State.reset.setVs rs

/-- Every row of the opcode map runs as the first instruction after reset. -/
theorem test_every_row_runs :
    opcodeTable.all (fun r => (after State.reset r.value.toNat (fun _ => ())).isSome) = true := by decide

/-- T1, T2. -/
theorem test_jp : after State.reset 0x1234 (·.pc) = some 0x234 ∧ after State.reset 0x1201 (·.pc) = some 0x201 := by
  decide

/-- T4. -/
theorem test_call : after State.reset 0x2ABC (fun t => (t.pc, t.sp, t.stack[0])) = some (0xABC, 1, 0x202) := by decide

/-- T6: PC keeps the advanced value. -/
theorem test_call_overflow : after { State.reset with sp := 16 } 0x2ABC (fun t => (t.pc, t.sp, t.mode)) =
    some (0x202, 16, .halted .stackOverflow 16) := by decide

/-- T7. -/
theorem test_ret : after { State.reset with sp := 2, stack := State.reset.stack.set 1 0x456 } 0x00EE
    (fun t => (t.pc, t.sp, t.stack[1])) = some (0x456, 1, 0x456) := by decide

/-- T8. -/
theorem test_ret_underflow : after State.reset 0x00EE (fun t => (t.pc, t.mode)) =
    some (0x202, .halted .stackUnderflow 0) := by decide

/-- T9, T10. -/
theorem test_seImm : after (regs [(3, 0x2A)]) 0x332A (·.pc) = some 0x204 ∧
    after (regs [(3, 0x2B)]) 0x332A (·.pc) = some 0x202 := by decide

/-- T11, T12. -/
theorem test_sneImm : after (regs [(3, 0x2A)]) 0x432A (·.pc) = some 0x202 ∧
    after (regs [(3, 0x2B)]) 0x432A (·.pc) = some 0x204 := by decide

/-- T14, T15. -/
theorem test_seReg : after (regs [(1, 7), (2, 8)]) 0x5120 (·.pc) = some 0x202 ∧
    after (regs [(3, 9)]) 0x5330 (·.pc) = some 0x204 := by decide

/-- T16, T17. -/
theorem test_sneReg : after (regs [(1, 7), (2, 8)]) 0x9120 (·.pc) = some 0x204 ∧
    after (regs [(1, 7), (2, 7)]) 0x9120 (·.pc) = some 0x202 := by decide

/-- T19: the sum is not reduced. -/
theorem test_jpV0 : after (regs [(0, 0xFF)]) 0xBFFF (·.pc) = some 0x10FE := by decide

/-- T20, T22: undefined words. -/
theorem test_undefined_is_noop : after (regs [(1, 7), (2, 7)]) 0x5121 (fun t => (t.pc, t.mode)) = some (0x202, .run) ∧
    after State.reset 0x0123 (fun t => (t.pc, t.sp)) = some (0x202, 0) := by decide

/-- A1, A2. -/
theorem test_ldImm : after State.reset 0x6A3E (·.getV 10) = some 0x3E ∧
    after (regs [(15, 9)]) 0x6F00 (·.getV 15) = some 0 := by decide

/-- S1, A5. -/
theorem test_addImm : after (regs [(1, 250), (15, 0x77)]) 0x710A (fun t => (t.getV 1, t.getV 15)) = some (4, 0x77) ∧
    after (regs [(15, 0xFE)]) 0x7F03 (·.getV 15) = some 1 := by decide

/-- A6. -/
theorem test_ldReg : after (regs [(2, 0x55)]) 0x8120 (fun t => (t.getV 1, t.getV 2)) = some (0x55, 0x55) := by decide

/-- A7. -/
theorem test_orReg : after (regs [(1, 0xF0), (2, 0x0F), (15, 0x33)]) 0x8121 (fun t => (t.getV 1, t.getV 15)) =
    some (0xFF, 0x33) := by decide

/-- A8. -/
theorem test_andReg : after (regs [(1, 0xF3), (2, 0x3C), (15, 0x33)]) 0x8122 (fun t => (t.getV 1, t.getV 15)) =
    some (0x30, 0x33) := by decide

/-- A9. -/
theorem test_xorReg : after (regs [(1, 0xFF), (2, 0x0F), (15, 0x33)]) 0x8123 (fun t => (t.getV 1, t.getV 15)) =
    some (0xF0, 0x33) := by decide

/-- A12, A11: sums of exactly 256 and 255. -/
theorem test_addReg : after (regs [(1, 0xFF), (2, 1)]) 0x8124 (fun t => (t.getV 1, t.getV 15)) = some (0, 1) ∧
    after (regs [(1, 0xFF)]) 0x8124 (fun t => (t.getV 1, t.getV 15)) = some (0xFF, 0) := by decide

/-- A15, A16: VF as destination and as operand. -/
theorem test_addReg_vf : after (regs [(15, 0xF0), (1, 0x20)]) 0x8F14 (·.getV 15) = some 0x10 ∧
    after (regs [(1, 0xF0), (15, 0x20)]) 0x81F4 (fun t => (t.getV 1, t.getV 15)) = some (0x10, 1) := by decide

/-- A17, A18: strict comparison. -/
theorem test_subReg : after (regs [(1, 10), (2, 5)]) 0x8125 (fun t => (t.getV 1, t.getV 15)) = some (5, 1) ∧
    after (regs [(1, 7), (2, 7), (15, 1)]) 0x8125 (fun t => (t.getV 1, t.getV 15)) = some (0, 0) := by decide

/-- A21, A22. -/
theorem test_subReg_vf : after (regs [(15, 5), (1, 3)]) 0x8F15 (·.getV 15) = some 2 ∧
    after (regs [(1, 5), (15, 3)]) 0x81F5 (fun t => (t.getV 1, t.getV 15)) = some (2, 1) := by decide

/-- A24, A27: y is ignored; the result overwrites the flag. -/
theorem test_shr : after (regs [(1, 4), (2, 0xFF), (15, 1)]) 0x8126 (fun t => (t.getV 1, t.getV 2, t.getV 15)) =
    some (2, 0xFF, 0) ∧ after (regs [(15, 7)]) 0x8F06 (·.getV 15) = some 3 := by decide

/-- A28, A29. -/
theorem test_subn : after (regs [(1, 5), (2, 10)]) 0x8127 (fun t => (t.getV 1, t.getV 15)) = some (5, 1) ∧
    after (regs [(1, 10), (2, 5)]) 0x8127 (fun t => (t.getV 1, t.getV 15)) = some (251, 0) := by decide

/-- A32, A36. -/
theorem test_shl : after (regs [(1, 0x81)]) 0x812E (fun t => (t.getV 1, t.getV 15)) = some (2, 1) ∧
    after (regs [(15, 0x81)]) 0x8F0E (·.getV 15) = some 2 := by decide

/-- A38: whatever the draw; and one byte is drawn (R111). -/
theorem test_rnd : after State.reset 0xC300 (·.draws) = some 1 := by decide

/-- M1. -/
theorem test_ldI : after State.reset 0xAFFF (·.i) = some 0xFFF := by decide

/-- M2, M3: no flag; wrap modulo 65536. -/
theorem test_addI : after { regs [(2, 2), (15, 0x55)] with i := 0xFFF } 0xF21E (fun t => (t.i, t.getV 15)) =
    some (0x1001, 0x55) ∧ after { regs [(2, 2)] with i := 0xFFFF } 0xF21E (·.i) = some 1 := by decide

/-- M5, M8: Vx whole. -/
theorem test_ldFont : after (regs [(3, 10)]) 0xF329 (·.i) = some 50 ∧
    after (regs [(3, 255)]) 0xF329 (·.i) = some 1275 := by decide

/-- M13: the last legal base. -/
theorem test_ldBcd : after { regs [(0, 157)] with i := 4093 } 0xF033
    (fun t => (t.mem.read 4093, t.mem.read 4094, t.mem.read 4095)) = some (1, 5, 7) := by decide

/-- M14: nothing is written, and the lowest address out of range is recorded. -/
theorem test_ldBcd_oob : after { regs [(0, 157)] with i := 4094 } 0xF033
    (fun t => (t.mem.read 4094, t.mem.read 4095, t.mode)) = some (0, 0, .halted .memOob 4096) := by decide

/-- M16: V0..V2, inclusive. -/
theorem test_storeRegs : after { regs [(0, 0x11), (1, 0x22), (2, 0x33), (3, 0x44)] with i := 0x400 } 0xF255
    (fun t => ([0, 1, 2, 3].map (fun k => t.mem.read (0x400 + k)), t.i)) = some ([0x11, 0x22, 0x33, 0], 0x400) := by
  decide

/-- M19 in one register: a block that ends at 4096. -/
theorem test_storeRegs_oob : after { regs [(0, 1)] with i := 0xFFF } 0xF155
    (fun t => (t.mem.read 4095, t.mode)) = some (0, .halted .memOob 4096) := by decide

/-- M22. -/
theorem test_loadRegs : after { State.reset with i := 0x300, mem := [(0x300, 1), (0x301, 5), (0x302, 7)] } 0xF265
    (fun t => (t.getV 0, t.getV 1, t.getV 2, t.getV 3, t.i)) = some (1, 5, 7, 0, 0x300) := by decide

/-- M26. -/
theorem test_loadRegs_oob : after { regs [(0, 1), (1, 2)] with i := 0xFFF } 0xF165
    (fun t => (t.getV 0, t.getV 1, t.mode)) = some (1, 2, .halted .memOob 4096) := by decide

/-- G1. -/
theorem test_cls : after { State.reset with fb := State.reset.fb.flip 31 63 } 0x00E0 (fun t => t.fb.pixel 31 63) =
    some false := by decide

/-- S12: a sprite row wraps at the right edge. -/
theorem test_drw_wraps : after { regs [(0, 63)] with i := 0x300, mem := [(0x300, 0xFF)] } 0xD011
    (fun t => (t.fb.pixel 0 63, t.fb.pixel 0 0, t.fb.pixel 0 6, t.fb.pixel 0 7, t.getV 15)) =
    some (true, true, true, false, 0) := by decide

/-- G12, G8: one collision suffices; n = 0 draws nothing and clears VF. -/
theorem test_drw_collision :
    after { State.reset with i := 0x300, mem := [(0x300, 0xC0)], fb := State.reset.fb.flip 0 1 } 0xD011
      (fun t => (t.fb.pixel 0 0, t.fb.pixel 0 1, t.getV 15)) = some (true, false, 1) ∧
    after { regs [(15, 1)] with i := 0x2000 } 0xD010 (fun t => (t.getV 15, t.mode)) = some (0, .run) := by decide

/-- K1, K5. -/
theorem test_skp : after { regs [(4, 7)] with key := State.reset.key.set 7 true } 0xE49E (·.pc) = some 0x204 ∧
    after (regs [(4, 16)]) 0xE49E (fun t => (t.pc, t.mode)) = some (0x202, .halted .keyOob 16) := by decide

/-- K4, K6: no masking to 7. -/
theorem test_sknp : after (regs [(4, 7)]) 0xE4A1 (·.pc) = some 0x204 ∧
    after { regs [(4, 0x17)] with key := State.reset.key.set 7 true } 0xE4A1 (·.mode) = some (.halted .keyOob 23) := by
  decide

/-- K8, K14: a held key does not satisfy the wait. -/
theorem test_ldVxKey : after { State.reset with key := State.reset.key.set 5 true } 0xF30A
    (fun t => (t.pc, t.mode, t.getV 3)) = some (0x202, .waitKey 3, 0) := by decide

/-- K15. -/
theorem test_ldVxDt : after { State.reset with dt := 0x3C } 0xF207 (fun t => (t.getV 2, t.dt)) = some (0x3C, 0x3C) := by
  decide

/-- K16, K17. -/
theorem test_ldDtVx : after (regs [(2, 0x3C)]) 0xF215 (fun t => (t.dt, t.st)) = some (0x3C, 0) := by decide
theorem test_ldStVx : after (regs [(2, 0x0A)]) 0xF218 (fun t => (t.dt, t.st)) = some (0, 0x0A) := by decide

/-! ### Host operations -/

/-- K12. -/
theorem test_keyEvent_ends_wait :
    (hostKeyEvent 0xB { State.reset with mode := .waitKey 3 }).getV 3 = 0x0B ∧
    (hostKeyEvent 0xB { State.reset with mode := .waitKey 3 }).mode = .run := by decide

/-- K10, K18. -/
theorem test_tick : (hostTick { State.reset with dt := 5, mode := .waitKey 3 }).dt = 5 ∧
    (hostTick { State.reset with dt := 2 }).dt = 1 ∧ (hostTick State.reset).st = 0 := by decide

/-- K20. -/
theorem test_sound_consume : (hostSoundConsume { State.reset with st := 9 }).reply = some (.sound 9) ∧
    (hostSoundConsume { State.reset with st := 9 }).st = 0 := by decide

/-- K24. -/
theorem test_isSet_oob : (hostIsSet 0 32 State.reset).mode = .halted .screenOob 8192 := by decide

/-- L6. -/
theorem test_load : (hostLoad [0x12, 0x00] (regs [(3, 7)])).pc = 512 ∧
    (hostLoad [0x12, 0x00] (regs [(3, 7)])).mem.read 512 = 0x12 ∧
    (hostLoad [0x12, 0x00] (regs [(3, 7)])).getV 3 = 7 := by decide

/-- K26. -/
theorem test_reset_from_halted : (hostReset { regs [(3, 7)] with mode := .halted .memOob 4096 }) = State.reset := by
  decide

/-- The schedule names the next operation: a tick, then a step of the core. -/
theorem test_schedule : (match step { State.reset with dt := 2, schedule := [.tick, .step] } with
    | .next t => some (t.dt, t.pc, t.schedule) | _ => none) = some (1, 0, [.step]) := by decide

/-! ### Witnesses: the hypotheses of each statement can be met -/

/-- A state whose next word, at 0x200, is w. -/
def at200 (w : Nat) : State := State.reset.withFetchWord 16 w

theorem wit_EncodeOfDecode : decodeWord 0xFF65 = .ok (.loadRegs 15) := by decide

theorem wit_DecodeFollowsTheTable : decodeWord 0x8FFE = .ok (.shl 15 15) ∧ wordWellFormed 0x8FFF = false := by decide

theorem wit_RowsDoNotOverlap : Row.cls ∈ opcodeTable ∧ Row.cls.accepts 0x00E0 = true := by decide

theorem wit_StepRunsDecodedInstruction :
    (at200 0x6A3E).mode = .run ∧ (at200 0x6A3E).pc.toNat + 1 < 4096 ∧
    decodeWord (at200 0x6A3E).wordAtPc = .ok (.ldImm 10 0x3E) ∧ (at200 0x6A3E).schedule = [] := by decide

theorem wit_StepRunsDecodedInstruction_scheduled :
    ({ at200 0x6A3E with schedule := [.step, .tick] } : State).schedule = .step :: [.tick] ∧
    ({ at200 0x6A3E with schedule := [.step, .tick] } : State).mode = .run ∧
    decodeWord ({ at200 0x6A3E with schedule := [.step, .tick] } : State).wordAtPc = .ok (.ldImm 10 0x3E) := by decide

theorem wit_UndefinedWordIsNoOp :
    (at200 0x5121).schedule = [] ∧ (at200 0x5121).mode = .run ∧ (at200 0x5121).pc.toNat + 1 < 4096 ∧
    wordWellFormed (at200 0x5121).wordAtPc = false := by decide

theorem wit_UndefinedWordIsNoOp_scheduled :
    ({ at200 0x5121 with schedule := [.step, .tick] } : State).schedule = .step :: [.tick] ∧
    ({ at200 0x5121 with schedule := [.step, .tick] } : State).mode = .run ∧
    wordWellFormed ({ at200 0x5121 with schedule := [.step, .tick] } : State).wordAtPc = false := by decide

theorem wit_FetchOutOfRangeHalts :
    ({ State.reset with pc := 4095 } : State).schedule = [] ∧ ({ State.reset with pc := 4095 } : State).mode = .run ∧
    4096 ≤ ({ State.reset with pc := 4095 } : State).pc.toNat + 1 := by decide

theorem wit_FetchOutOfRangeHalts_scheduled :
    ({ State.reset with pc := 4095, schedule := [.step] } : State).schedule = .step :: [] ∧
    ({ State.reset with pc := 4095, schedule := [.step] } : State).mode = .run ∧
    4096 ≤ ({ State.reset with pc := 4095, schedule := [.step] } : State).pc.toNat + 1 := by decide

theorem wit_FatalIsAllOrNothing_execute : ∃ t, step (at200 0x00EE) = .next t ∧ t.mode = .halted .stackUnderflow 0 ∧
    (at200 0x00EE).schedule = [] ∧ (at200 0x00EE).mode = .run ∧ (at200 0x00EE).pc.toNat + 1 < 4096 :=
  ⟨_, rfl, by decide⟩

theorem wit_FatalIsAllOrNothing_fetch : ∃ t, step { State.reset with pc := 4095 } = .next t ∧
    t.mode = .halted .memOob 4095 := ⟨_, rfl, by decide⟩

theorem wit_FatalIsAllOrNothing_scheduled :
    (∃ t, step { at200 0x00EE with schedule := [.step] } = .next t ∧ t.mode = .halted .stackUnderflow 0) ∧
    ∃ t, step { State.reset with pc := 4095, schedule := [.step] } = .next t ∧ t.mode = .halted .memOob 4095 :=
  ⟨⟨_, rfl, by decide⟩, ⟨_, rfl, by decide⟩⟩

theorem wit_FatalCausesByInstruction_call : ∃ t, exec (.call 0x200) { State.reset with sp := 16 } = .next t ∧
    t.mode = .halted .stackOverflow 16 ∧ ({ State.reset with sp := 16 } : State).mode = .run := ⟨_, rfl, by decide⟩

theorem wit_FatalCausesByInstruction_ret : ∃ t, exec .ret State.reset = .next t ∧
    t.mode = .halted .stackUnderflow 0 ∧ State.reset.mode = .run := ⟨_, rfl, by decide⟩

theorem wit_FatalCausesByInstruction_key : ∃ t, exec (.skp 4) (regs [(4, 16)]) = .next t ∧
    t.mode = .halted .keyOob 16 ∧ (regs [(4, 16)]).mode = .run := ⟨_, rfl, by decide⟩

theorem wit_FatalCausesByInstruction_memory : ∃ t, exec (.drw 0 0 1) { State.reset with i := 4096 } = .next t ∧
    t.mode = .halted .memOob 4096 ∧ ({ State.reset with i := 4096 } : State).mode = .run := ⟨_, rfl, by decide⟩

/-- The bounds, met exactly: the last byte of each access at 4096, for LD B, LD [I] and LD Vx, [I]. -/
theorem wit_FatalCausesByInstruction_blocks :
    (∃ t, exec (.ldBcd 0) { State.reset with i := 4094 } = .next t ∧ t.mode = .halted .memOob 4096) ∧
    (∃ t, exec (.storeRegs 1) { State.reset with i := 4095 } = .next t ∧ t.mode = .halted .memOob 4096) ∧
    ∃ t, exec (.loadRegs 1) { State.reset with i := 4095 } = .next t ∧ t.mode = .halted .memOob 4096 :=
  ⟨⟨_, rfl, by decide⟩, ⟨_, rfl, by decide⟩, ⟨_, rfl, by decide⟩⟩

/-- The invariant, met at its bounds by a state that lists a cell. -/
theorem wit_StepKeepsInv : ∃ t, step { State.reset with
      pc := 0x10FE, stack := State.reset.stack.set 0 4096, mem := [(4095, 1)] } = .next t ∧
    ({ State.reset with pc := 0x10FE, stack := State.reset.stack.set 0 4096, mem := [(4095, 1)] } : State).Inv :=
  ⟨_, rfl, by decide⟩

theorem wit_ResetFromAnyState :
    ({ State.reset with mode := .halted .memOob 4096, schedule := [.reset] } : State).schedule = .reset :: [] := by
  decide

theorem wit_CallPushesReturnAddress : ({ State.reset with sp := 15 } : State).sp.val < 16 := by decide

theorem wit_ReturnPopsAddress : 0 < ({ State.reset with sp := 16 } : State).sp.val ∧
    0 < ({ State.reset with sp := 1 } : State).sp.val := by decide

theorem wit_ReturnUndoesCall : State.reset.sp.val < 16 := by decide

theorem wit_StackFaultsHalt : ({ State.reset with sp := 16 } : State).sp.val = 16 ∧ State.reset.sp.val = 0 := by decide

theorem wit_SkipsOnImmediate : (regs [(3, 0x2A)]).getV 3 = 0x2A ∧ (regs [(3, 0x2B)]).getV 3 ≠ 0x2A := by decide

theorem wit_SkipsOnRegisters : (regs [(1, 7), (2, 7)]).getV 1 = (regs [(1, 7), (2, 7)]).getV 2 ∧
    (regs [(1, 7), (2, 8)]).getV 1 ≠ (regs [(1, 7), (2, 8)]).getV 2 := by decide

theorem wit_JumpToSelfIdles :
    (at200 0x1200).schedule = [] ∧ (at200 0x1200).mode = .run ∧ (at200 0x1200).pc.toNat + 1 < 4096 ∧
    (at200 0x1200).pc.toNat = (0x200 : Addr).toNat ∧ (at200 0x1200).wordAtPc = encode (.jp 0x200) := by decide

theorem wit_JumpToSelfIdles_scheduled :
    ({ at200 0x1200 with schedule := [.step, .tick] } : State).schedule = .step :: [.tick] ∧
    ({ at200 0x1200 with schedule := [.step, .tick] } : State).mode = .run ∧
    ({ at200 0x1200 with schedule := [.step, .tick] } : State).wordAtPc = encode (.jp 0x200) := by decide

/-- The flag clause of the four instructions of 41_alu.md section 3, AddSetsCarry with them. -/
theorem wit_flag_clause : (14 : Reg) ≠ vf ∧ (0 : Reg) ≠ vf := by decide

theorem wit_FlagRegisterAsOperand : (14 : Reg) ≠ vf := by decide

theorem wit_RandomUnderMask : (0x0F : Byte).getLsbD 4 = false ∧ (2 : Reg) ≠ 3 := by decide

theorem wit_BcdStoresDigits : ({ State.reset with i := 4093 } : State).i.toNat + 2 < 4096 := by decide

theorem wit_StoreRegsStoresBlock : ({ State.reset with i := 0xFF0 } : State).i.toNat + (15 : Reg).val < 4096 ∧
    ({ State.reset with i := 0xFFF } : State).i.toNat + (0 : Reg).val < 4096 := by decide

theorem wit_LoadRegsLoadsBlock : ({ State.reset with i := 0xFFF } : State).i.toNat + (0 : Reg).val < 4096 ∧
    (0 : Reg) ≤ 0 ∧ (0 : Reg) < 15 := by decide

theorem wit_BlockOutOfRangeHalts :
    4096 ≤ ({ State.reset with i := 4094 } : State).i.toNat + 2 ∧
    4096 ≤ ({ State.reset with i := 0xFF1 } : State).i.toNat + (15 : Reg).val ∧ 0 < (2 : Nibble).toNat ∧
    4096 < ({ State.reset with i := 0xFFF } : State).i.toNat + (2 : Nibble).toNat := by decide

/-- V0, V1 = 0x60, 0x55 are stored over the word at PC = 0x300 and spell LD V0, 0x55. -/
theorem wit_StoreIsFetchedNext :
    ({ regs [(0, 0x60), (1, 0x55)] with i := 0x300, pc := 0x300 } : State).schedule = [] ∧
    ({ regs [(0, 0x60), (1, 0x55)] with i := 0x300, pc := 0x300 } : State).mode = .run ∧
    ({ regs [(0, 0x60), (1, 0x55)] with i := 0x300, pc := 0x300 } : State).pc.toNat + 1 < 4096 ∧
    ({ regs [(0, 0x60), (1, 0x55)] with i := 0x300, pc := 0x300 } : State).i.toNat + (1 : Reg).val < 4096 ∧
    (1 : Reg).val = (0 : Reg).val + 1 ∧ (1 : Reg) ≤ 1 ∧
    ({ regs [(0, 0x60), (1, 0x55)] with i := 0x300, pc := 0x300 } : State).i.toNat + (0 : Reg).val =
      ({ regs [(0, 0x60), (1, 0x55)] with i := 0x300, pc := 0x300 } : State).pc.toNat ∧
    decodeWord (wordOfBytes ((regs [(0, 0x60), (1, 0x55)]).getV 0) ((regs [(0, 0x60), (1, 0x55)]).getV 1)) =
      .ok (.ldImm 0 0x55) := by decide

theorem wit_StoreIsFetchedNext_scheduled :
    ({ regs [(0, 0x60), (1, 0x55)] with i := 0x300, pc := 0x300, schedule := [.step] } : State).schedule =
      .step :: [] := rfl

/-- The last sprite row at 4095, and no row at all from an address outside memory. -/
theorem wit_DrawFlipsCoveredPixels :
    ({ State.reset with i := 0xFFF } : State).i.toNat + (1 : Nibble).toNat ≤ 4096 ∧ (0 : Nibble).toNat = 0 := by decide

/-- A pixel a sprite covers, one it does not, and a set pixel under it: the clauses of DrawFlipsCoveredPixels. -/
theorem wit_DrawFlipsCoveredPixels_clauses :
    SpriteCovers [(0x300, 0x80)] 0x300 0 0 1 0 0 ∧ ¬ SpriteCovers [(0x300, 0x80)] 0x300 0 0 1 1 0 ∧
    (State.reset.fb.flip 0 0).pixel 0 0 = true := by
  refine ⟨⟨0, 0, by decide⟩, ?_, by decide⟩
  rintro ⟨row, col, hr, _, _, h, _⟩
  obtain rfl : row = 0 := by omega
  exact absurd h (by decide)

theorem wit_DrawTwiceRestores : (0 : Reg) ≠ vf ∧ (1 : Reg) ≠ vf ∧
    ({ State.reset with i := 0x300 } : State).i.toNat + (15 : Nibble).toNat ≤ 4096 := by decide

theorem wit_SkipsOnKey : ((regs [(4, 15)]).getV 4).toNat = (15 : Fin 16).val ∧
    State.reset.key[(15 : Fin 16)] = false ∧ (State.reset.key.set 15 true)[(15 : Fin 16)] = true := by decide

theorem wit_KeyNumberOutOfRangeHalts : 16 ≤ ((regs [(4, 16)]).getV 4).toNat := by decide

theorem wit_WaitForKey : (15 : Nat) < 16 := by decide

theorem wit_RegisterFrame : ∃ t, exec (.addReg 1 2) State.reset = .next t ∧ (3 : Reg) ∉ dests (.addReg 1 2) :=
  ⟨_, rfl, by decide⟩

theorem wit_MemoryFrame_bcd : ∃ t, exec (.ldBcd 0) { regs [(0, 157)] with i := 0x300 } = .next t ∧
    t.mem.read 0x302 ≠ ({ regs [(0, 157)] with i := 0x300 } : State).mem.read 0x302 := ⟨_, rfl, by decide⟩

theorem wit_MemoryFrame_store : ∃ t, exec (.storeRegs 0) { regs [(0, 157)] with i := 0x300 } = .next t ∧
    t.mem.read 0x300 ≠ ({ regs [(0, 157)] with i := 0x300 } : State).mem.read 0x300 := ⟨_, rfl, by decide⟩

theorem wit_SpecialStateFrame_i : ∃ t, exec (.ldI 0x300) State.reset = .next t ∧ t.i ≠ State.reset.i :=
  ⟨_, rfl, by decide⟩

theorem wit_SpecialStateFrame_stack : ∃ t, exec (.call 0x300) { State.reset with pc := 2 } = .next t ∧
    t.sp ≠ State.reset.sp ∧ t.stack ≠ State.reset.stack := ⟨_, rfl, by decide⟩

theorem wit_SpecialStateFrame_timers :
    (∃ t, exec (.ldDtVx 1) (regs [(1, 9)]) = .next t ∧ t.dt ≠ (regs [(1, 9)]).dt) ∧
    ∃ t, exec (.ldStVx 1) (regs [(1, 9)]) = .next t ∧ t.st ≠ (regs [(1, 9)]).st :=
  ⟨⟨_, rfl, by decide⟩, ⟨_, rfl, by decide⟩⟩

theorem wit_SpecialStateFrame_rest :
    (∃ t, exec .cls { State.reset with fb := State.reset.fb.flip 0 0 } = .next t ∧
      t.fb ≠ State.reset.fb.flip 0 0) ∧
    (∃ t, exec (.ldVxKey 3) State.reset = .next t ∧ t.mode = .waitKey 3) ∧
    ∃ t, exec (.rnd 3 0xFF) State.reset = .next t ∧ t.draws ≠ State.reset.draws :=
  ⟨⟨_, rfl, by decide⟩, ⟨_, rfl, by decide⟩, ⟨_, rfl, by decide⟩⟩

theorem wit_SpecialStateFrame_mode :
    (∃ t, exec (.ldVxKey 3) State.reset = .next t ∧ t.mode ≠ State.reset.mode) ∧
    ∃ t, exec .ret State.reset = .next t ∧ t.mode ≠ State.reset.mode :=
  ⟨⟨_, rfl, by decide⟩, ⟨_, rfl, by decide⟩⟩

theorem wit_PcAfterInstruction : ∃ t, exec (.jp 0x300) State.reset = .next t ∧ t.pc ≠ State.reset.pc :=
  ⟨_, rfl, by decide⟩

theorem wit_TickCountsDown : State.reset.mode = .run ∧ ({ State.reset with mode := .waitKey 0 } : State).mode ≠ .run := by
  decide

theorem wit_KeyOperations : State.reset.isHalted = false ∧ State.reset.mode = .run ∧ (15 : Nat) < 16 ∧ 16 ≤ 16 := by
  decide

theorem wit_SoundReadAndConsume : State.reset.isHalted = false ∧
    ({ State.reset with mode := .halted .memOob 4096 } : State).isHalted = true := by decide

theorem wit_PixelRead : (63 < 64 ∧ 31 < 32) ∧ (64 ≤ 64 ∨ 32 ≤ 0) ∧ State.reset.isHalted = false ∧
    ({ State.reset with mode := .halted .memOob 4096 } : State).isHalted = true := by decide

theorem wit_LoadPlacesProgram : State.reset.mode = .run ∧ 512 + ([1, 2] : List Byte).length < 4096 ∧
    4096 ≤ 512 + (List.replicate 3584 (0 : Byte)).length ∧
    ({ State.reset with mode := .waitKey 0 } : State).mode ≠ .run := by
  refine ⟨rfl, by decide, ?_, by decide⟩
  rw [List.length_replicate]

theorem wit_HaltedIsFrozen : ({ State.reset with mode := .halted .memOob 4096 } : State).isHalted = true ∧
    Operation.tick ≠ .reset := by decide

theorem wit_WaitingIsFrozen : ({ State.reset with mode := .waitKey 3 } : State).mode = .waitKey 3 ∧
    Operation.keyDown 16 ≠ .reset ∧ ∀ k, Operation.keyDown 16 ≠ .keyEvent k := by
  refine ⟨rfl, by decide, fun k => ?_⟩
  simp

theorem wit_WaitingIsFrozen_keyEvent : ({ State.reset with mode := .waitKey 3 } : State).mode = .waitKey 3 ∧
    (15 : Nat) < 16 ∧ (2 : Reg) ≠ 3 := by decide

end Sys2Proof.Tests
end

section
/-! Control flow (40_control_flow.md R83, R85 to R89): the jumps and the skips, each one equation of `exec`, and the two
ways they write PC. -/

namespace Sys2Proof.Machine

/-! ### Writing PC alone -/

theorem onlyPc_setPc (s : State) (w : Word) : OnlyPc s (s.setPc w) := rfl

theorem onlyPc_skipIf (s : State) (c : Bool) : OnlyPc s (s.skipIf c) := by
  rw [OnlyPc, State.skipIf_pc]
  exact s.skipIf_frame c

/-! ### Jump targets as naturals -/

theorem toNat_addrWord (nnn : Addr) : (addrWord nnn).toNat = nnn.toNat :=
  BitVec.toNat_setWidth_of_le (by decide)

theorem toNat_byteWord (b : Byte) : (byteWord b).toNat = b.toNat :=
  BitVec.toNat_setWidth_of_le (by decide)

/-- 12 bits plus 8 bits stay below 2 ^ 16, so the target of `Bnnn` is the exact sum (R89). -/
theorem toNat_addrWord_add_byteWord (nnn : Addr) (b : Byte) :
    (addrWord nnn + byteWord b).toNat = nnn.toNat + b.toNat := by
  have hlt : (addrWord nnn).toNat + (byteWord b).toNat < 2 ^ 16 := by
    rw [toNat_addrWord, toNat_byteWord]
    omega
  rw [BitVec.toNat_add_of_lt hlt, toNat_addrWord, toNat_byteWord]

/-! ### One equation per instruction -/

theorem exec_jp (nnn : Addr) (s : State) : exec (.jp nnn) s = .next (s.setPc (addrWord nnn)) := rfl

theorem exec_jpV0 (nnn : Addr) (s : State) :
    exec (.jpV0 nnn) s = .next (s.setPc (addrWord nnn + byteWord (s.getV 0))) := rfl

theorem exec_seImm (x : Reg) (kk : Byte) (s : State) :
    exec (.seImm x kk) s = .next (s.skipIf (s.getV x == kk)) := rfl

theorem exec_sneImm (x : Reg) (kk : Byte) (s : State) :
    exec (.sneImm x kk) s = .next (s.skipIf (s.getV x != kk)) := rfl

theorem exec_seReg (x y : Reg) (s : State) :
    exec (.seReg x y) s = .next (s.skipIf (s.getV x == s.getV y)) := rfl

theorem exec_sneReg (x y : Reg) (s : State) :
    exec (.sneReg x y) s = .next (s.skipIf (s.getV x != s.getV y)) := rfl

/-! ### The skips -/

/-- An instruction that skips when two bytes are equal. -/
theorem exec_skips_of_beq {i : Instr} {s : State} {a b : Byte} (h : exec i s = .next (s.skipIf (a == b))) :
    ∃ t, exec i s = .next t ∧ (a = b → t.pc = s.pc + 2) ∧ (a ≠ b → t.pc = s.pc) ∧ OnlyPc s t := by
  refine ⟨_, h, fun heq => ?_, fun hne => ?_, onlyPc_skipIf s _⟩
  · rw [State.skipIf_pc, if_pos (beq_iff_eq.mpr heq)]
  · rw [State.skipIf_pc, if_neg (mt beq_iff_eq.mp hne)]

/-- An instruction that skips when two bytes differ. -/
theorem exec_skips_of_bne {i : Instr} {s : State} {a b : Byte} (h : exec i s = .next (s.skipIf (a != b))) :
    ∃ t, exec i s = .next t ∧ (a ≠ b → t.pc = s.pc + 2) ∧ (a = b → t.pc = s.pc) ∧ OnlyPc s t := by
  refine ⟨_, h, fun hne => ?_, fun heq => ?_, onlyPc_skipIf s _⟩
  · rw [State.skipIf_pc, if_pos (bne_iff_ne.mpr hne)]
  · rw [State.skipIf_pc, if_neg (fun hc => bne_iff_ne.mp hc heq)]

/-! ### The obligations -/

/-- Settles O17: both jumps write PC alone, and the sum of `Bnnn` does not overflow 16 bits. -/
theorem jumpsSetPc : Obligations.JumpsSetPc := by
  intro s nnn
  exact ⟨⟨_, exec_jp nnn s, toNat_addrWord nnn, onlyPc_setPc s _⟩,
    ⟨_, exec_jpV0 nnn s, toNat_addrWord_add_byteWord nnn (s.getV 0), onlyPc_setPc s _⟩⟩

/-- Settles O22, by the two kinds of skip. -/
theorem skipsOnImmediate : Obligations.SkipsOnImmediate := by
  intro s x kk
  exact ⟨exec_skips_of_beq (exec_seImm x kk s), exec_skips_of_bne (exec_sneImm x kk s)⟩

/-- Settles O23, by the two kinds of skip. -/
theorem skipsOnRegisters : Obligations.SkipsOnRegisters := by
  intro s x y
  exact ⟨exec_skips_of_beq (exec_seReg x y s), exec_skips_of_bne (exec_sneReg x y s)⟩

end Sys2Proof.Machine
end

section
/-! Register loads, arithmetic and logic (41_alu.md R100 to R106, 44_keyboard_timers.md R153): what the write of one
register and the write of flag and result leave, one equation of `exec` for each instruction, and the carry as a
natural. -/

namespace Sys2Proof.Machine

/-! ### Writing one register, and a register with the flag -/

theorem onlyReg_setV (s : State) (x : Reg) (b : Byte) : OnlyReg s (s.setV x b) x :=
  ⟨fun _ hr => by rw [State.getV_setV, if_neg hr], s.setV_frame x b⟩

theorem onlyRegAndFlag_setFlagged (s : State) (x : Reg) (flag result : Byte) :
    OnlyRegAndFlag s (s.setFlagged x flag result) x :=
  ⟨fun _ hx hf => by rw [State.getV_setFlagged, if_neg hx, if_neg hf], s.setFlagged_frame x flag result⟩

/-- The result stands in Vx, also where Vx is VF (R113). -/
@[simp] theorem State.getV_setFlagged_self (s : State) (x : Reg) (flag result : Byte) :
    (s.setFlagged x flag result).getV x = result := by
  rw [State.getV_setFlagged, if_pos rfl]

theorem State.getV_setFlagged_vf {x : Reg} (hx : x ≠ vf) (s : State) (flag result : Byte) :
    (s.setFlagged x flag result).getV vf = flag := by
  rw [State.getV_setFlagged, if_neg hx.symm, if_pos rfl]

/-! ### The flags as naturals -/

theorem toNat_flagByte (p : Prop) [Decidable p] : (flagByte (decide p)).toNat = if p then 1 else 0 := by
  by_cases hp : p
  · rw [if_pos hp, decide_eq_true hp]; rfl
  · rw [if_neg hp, decide_eq_false hp]; rfl

theorem toNat_carryFlag (a b : Byte) : (carryFlag a b).toNat = if 255 < a.toNat + b.toNat then 1 else 0 :=
  toNat_flagByte _

/-! ### One equation per instruction -/

theorem exec_ldImm (x : Reg) (kk : Byte) (s : State) : exec (.ldImm x kk) s = .next (s.setV x kk) := rfl

theorem exec_ldReg (x y : Reg) (s : State) : exec (.ldReg x y) s = .next (s.setV x (s.getV y)) := rfl

theorem exec_ldVxDt (x : Reg) (s : State) : exec (.ldVxDt x) s = .next (s.setV x s.dt) := rfl

theorem exec_addImm (x : Reg) (kk : Byte) (s : State) :
    exec (.addImm x kk) s = .next (s.setV x (s.getV x + kk)) := rfl

theorem exec_orReg (x y : Reg) (s : State) :
    exec (.orReg x y) s = .next (s.setV x (s.getV x ||| s.getV y)) := rfl

theorem exec_andReg (x y : Reg) (s : State) :
    exec (.andReg x y) s = .next (s.setV x (s.getV x &&& s.getV y)) := rfl

theorem exec_xorReg (x y : Reg) (s : State) :
    exec (.xorReg x y) s = .next (s.setV x (s.getV x ^^^ s.getV y)) := rfl

theorem exec_addReg (x y : Reg) (s : State) :
    exec (.addReg x y) s = .next (s.setFlagged x (carryFlag (s.getV x) (s.getV y)) (s.getV x + s.getV y)) := rfl

/-! ### The obligations -/

/-- Settles O25: each load is one write of a register. -/
theorem loadsWriteOneRegister : Obligations.LoadsWriteOneRegister := by
  intro s x y kk
  exact ⟨⟨_, exec_ldImm x kk s, s.getV_setV_self x kk, onlyReg_setV s x kk⟩,
    ⟨_, exec_ldReg x y s, s.getV_setV_self x _, onlyReg_setV s x _⟩,
    ⟨_, exec_ldVxDt x s, s.getV_setV_self x _, onlyReg_setV s x _⟩⟩

/-- Settles O26: the sum of two bytes is reduced modulo 2 ^ 8, and one register is written. -/
theorem addImmediateWraps : Obligations.AddImmediateWraps := by
  intro s x kk
  refine ⟨_, exec_addImm x kk s, ?_, onlyReg_setV s x _⟩
  rw [State.getV_setV_self, BitVec.toNat_add]

/-- Settles O27: each result is the bitwise operation on the old values, written to one register. -/
theorem logicBitByBit : Obligations.LogicBitByBit := by
  intro s x y
  refine ⟨⟨_, exec_orReg x y s, onlyReg_setV s x _, fun k => ?_⟩,
    ⟨_, exec_andReg x y s, onlyReg_setV s x _, fun k => ?_⟩,
    ⟨_, exec_xorReg x y s, onlyReg_setV s x _, fun k => ?_⟩⟩
  · rw [State.getV_setV_self, BitVec.getLsbD_or]
  · rw [State.getV_setV_self, BitVec.getLsbD_and]
  · rw [State.getV_setV_self, BitVec.getLsbD_xor]

/-- Settles O28: the carry is written to VF first and the sum to Vx after it, so that the sum stands in VF where x is
15. -/
theorem addSetsCarry : Obligations.AddSetsCarry := by
  intro s x y
  refine ⟨_, exec_addReg x y s, ?_, fun hx => ?_, onlyRegAndFlag_setFlagged s x _ _⟩
  · rw [State.getV_setFlagged_self, BitVec.toNat_add]
  · rw [State.getV_setFlagged_vf hx, toNat_carryFlag]

end Sys2Proof.Machine
end

section
/-! The index register (42_index_memory.md R120, R122): the two loads of I, each one equation of `exec`, and the glyph
address as a natural. -/

namespace Sys2Proof.Machine

/-- A byte times 5 is at most 1275, so the address is the exact product of the whole register value (R122). -/
theorem toNat_glyphAddr (b : Byte) : (glyphAddr b).toNat = b.toNat * 5 := by
  have h5 : (5 : Word).toNat = 5 := rfl
  have hlt : (byteWord b).toNat * (5 : Word).toNat < 2 ^ 16 := by
    rw [toNat_byteWord, h5]
    omega
  rw [glyphAddr, BitVec.toNat_mul_of_lt hlt, toNat_byteWord, h5]

theorem exec_ldI (nnn : Addr) (s : State) : exec (.ldI nnn) s = .next (s.setI (addrWord nnn)) := rfl

theorem exec_ldFont (x : Reg) (s : State) : exec (.ldFont x) s = .next (s.setI (glyphAddr (s.getV x))) := rfl

theorem State.setI_frame (s : State) (w : Word) : s.setI w = { s with i := (s.setI w).i } := rfl

/-- Settles O35: both loads write I alone, and neither the 12-bit address nor five times a byte overflows 16 bits. -/
theorem indexLoads : Obligations.IndexLoads := by
  intro s x nnn
  exact ⟨⟨_, exec_ldI nnn s, toNat_addrWord nnn, s.setI_frame _⟩,
    ⟨_, exec_ldFont x s, toNat_glyphAddr (s.getV x), s.setI_frame _⟩⟩

end Sys2Proof.Machine
end

section
/-! The display (43_display.md R140): CLS is one write of the framebuffer, and what such a write leaves. -/

namespace Sys2Proof.Machine

theorem exec_cls (s : State) : exec .cls s = .next (s.setFb Framebuffer.clear) := rfl

theorem State.setFb_frame (s : State) (fb : Framebuffer) : s.setFb fb = { s with fb := (s.setFb fb).fb } := rfl

/-- Settles O42: the framebuffer alone is written, with the one that has no pixel set. -/
theorem clearScreen : Obligations.ClearScreen := by
  intro s
  refine ⟨_, exec_cls s, fun r c => ?_, s.setFb_frame _⟩
  rw [State.setFb_fb, Framebuffer.pixel_clear]

end Sys2Proof.Machine
end

section
/-! The timers (44_keyboard_timers.md R154, R155): each of the two loads is one update of its timer's field. -/

namespace Sys2Proof.Machine

theorem exec_ldDtVx (x : Reg) (s : State) : exec (.ldDtVx x) s = .next { s with dt := s.getV x } := rfl

theorem exec_ldStVx (x : Reg) (s : State) : exec (.ldStVx x) s = .next { s with st := s.getV x } := rfl

/-- Settles O48: each load writes the old Vx to its own timer field, whatever the value, and no other field. -/
theorem timerWrites : Obligations.TimerWrites := by
  intro s x
  exact ⟨⟨_, exec_ldDtVx x s, rfl, rfl⟩, ⟨_, exec_ldStVx x s, rfl, rfl⟩⟩

end Sys2Proof.Machine
end

section
/-! Decoding against encoding (30_encoding.md R60 to R66): the fields of a word put together from fields, a word put
together from its own fields, the decoder inverted group by group, and the opcode map read through them. -/

namespace Sys2Proof

/-! ### The fields of a word put together from fields (R61, R62) -/

@[simp] theorem fieldG_formatA (g : Nibble) (nnn : Addr) : fieldG (formatA g nnn) = g :=
  BitVec.extractLsb'_append_eq_left

@[simp] theorem fieldNNN_formatA (g : Nibble) (nnn : Addr) : fieldNNN (formatA g nnn) = nnn :=
  BitVec.extractLsb'_append_eq_right

@[simp] theorem fieldG_formatXK (g : Nibble) (x : Reg) (kk : Byte) : fieldG (formatXK g x kk) = g := by
  rw [fieldG, formatXK, BitVec.extractLsb'_append_eq_of_le (by decide)]
  exact BitVec.extractLsb'_append_eq_left

@[simp] theorem fieldX_formatXK (g : Nibble) (x : Reg) (kk : Byte) : fieldX (formatXK g x kk) = x := by
  rw [fieldX, formatXK, BitVec.extractLsb'_append_eq_of_le (by decide)]
  exact congrArg BitVec.toFin BitVec.extractLsb'_append_eq_right

@[simp] theorem fieldKK_formatXK (g : Nibble) (x : Reg) (kk : Byte) : fieldKK (formatXK g x kk) = kk :=
  BitVec.extractLsb'_append_eq_right

/-- The two-register format is the register-and-byte format with y and n in the byte. -/
theorem formatXY_eq_formatXK (g : Nibble) (x y : Reg) (n : Nibble) :
    formatXY g x y n = formatXK g x (regBits y ++ n) := by
  rw [formatXY, formatXK]
  exact BitVec.append_assoc

@[simp] theorem fieldG_formatXY (g : Nibble) (x y : Reg) (n : Nibble) : fieldG (formatXY g x y n) = g := by
  rw [formatXY_eq_formatXK, fieldG_formatXK]

@[simp] theorem fieldX_formatXY (g : Nibble) (x y : Reg) (n : Nibble) : fieldX (formatXY g x y n) = x := by
  rw [formatXY_eq_formatXK, fieldX_formatXK]

@[simp] theorem fieldY_formatXY (g : Nibble) (x y : Reg) (n : Nibble) : fieldY (formatXY g x y n) = y := by
  rw [fieldY, formatXY, BitVec.extractLsb'_append_eq_of_le (by decide)]
  exact congrArg BitVec.toFin BitVec.extractLsb'_append_eq_right

@[simp] theorem fieldN_formatXY (g : Nibble) (x y : Reg) (n : Nibble) : fieldN (formatXY g x y n) = n :=
  BitVec.extractLsb'_append_eq_right

/-! ### A word put together from its own fields -/

theorem formatA_fields (op : Word) : formatA (fieldG op) (fieldNNN op) = op :=
  BitVec.extractLsb'_append_extractLsb' (w := 4) (len := 12)

theorem formatXK_fields (op : Word) : formatXK (fieldG op) (fieldX op) (fieldKK op) = op := by
  have hgx : fieldG op ++ regBits (fieldX op) = op.extractLsb' 8 8 :=
    BitVec.extractLsb'_append_extractLsb'_eq_extractLsb' (x := op) (start₁ := 8) (start₂ := 12) rfl
  rw [formatXK, hgx]
  exact BitVec.extractLsb'_append_extractLsb' (w := 8) (len := 8)

theorem formatXY_fields (op : Word) : formatXY (fieldG op) (fieldX op) (fieldY op) (fieldN op) = op := by
  have hyn : regBits (fieldY op) ++ fieldN op = fieldKK op :=
    BitVec.extractLsb'_append_extractLsb'_eq_extractLsb' (x := op) (start₁ := 0) (start₂ := 4) rfl
  rw [formatXY_eq_formatXK, hyn, formatXK_fields]

/-- The two bytes of a word spell it (R44). -/
theorem wordOfBytes_highByte_lowByte (op : Word) : wordOfBytes (highByte op) (lowByte op) = op :=
  BitVec.extractLsb'_append_extractLsb' (w := 8) (len := 8)

/-! ### The decoder after the encoder -/

/-- Decoding an instruction's word dispatches on the very fields the encoder wrote. -/
theorem decodeWord_encode (i : Instr) : decodeWord (encode i) = .ok i := by
  cases i with
  | cls => decide
  | ret => decide
  | _ => simp [encode, decodeWord, decodeGroup5, decodeGroup8, decodeGroup9, decodeGroupE, decodeGroupF]

/-- Settles O1: the decoder finds each field where the encoder put it, and two bytes spell their word. -/
theorem decodeOfEncode : Obligations.DecodeOfEncode := by
  intro i rest
  refine ⟨decodeWord_encode i, ?_⟩
  rw [encodeBytes, List.cons_append, List.cons_append, List.nil_append, decode, wordOfBytes_highByte_lowByte,
    decodeWord_encode]

/-! ### The encoder after the decoder -/

theorem fieldG_of_toNat {op : Word} {g : Nat} (hg : (fieldG op).toNat = g) : fieldG op = BitVec.ofNat 4 g := by
  rw [← hg, BitVec.ofNat_toNat, BitVec.setWidth_eq]

theorem fieldN_of_toNat {op : Word} {n : Nat} (hn : (fieldN op).toNat = n) : fieldN op = BitVec.ofNat 4 n := by
  rw [← hn, BitVec.ofNat_toNat, BitVec.setWidth_eq]

section
variable {op : Word} {i : Instr} {g n : Nat}

theorem formatA_of_group (hg : (fieldG op).toNat = g) : formatA (BitVec.ofNat 4 g) (fieldNNN op) = op := by
  rw [← fieldG_of_toNat hg, formatA_fields]

theorem formatXK_of_group (hg : (fieldG op).toNat = g) :
    formatXK (BitVec.ofNat 4 g) (fieldX op) (fieldKK op) = op := by
  rw [← fieldG_of_toNat hg, formatXK_fields]

theorem formatXK_of_group_byte (hg : (fieldG op).toNat = g) {kk : Byte} (hk : fieldKK op = kk) :
    formatXK (BitVec.ofNat 4 g) (fieldX op) kk = op := by
  rw [← hk, formatXK_of_group hg]

theorem formatXY_of_group (hg : (fieldG op).toNat = g) :
    formatXY (BitVec.ofNat 4 g) (fieldX op) (fieldY op) (fieldN op) = op := by
  rw [← fieldG_of_toNat hg, formatXY_fields]

theorem formatXY_of_group_nibble (hg : (fieldG op).toNat = g) (hn : (fieldN op).toNat = n) :
    formatXY (BitVec.ofNat 4 g) (fieldX op) (fieldY op) (BitVec.ofNat 4 n) = op := by
  rw [← fieldN_of_toNat hn, formatXY_of_group hg]

theorem encode_of_decodeGroup0 (h : decodeGroup0 op = .ok i) : encode i = op := by
  unfold decodeGroup0 at h
  split at h
  · next hop => cases h; exact hop.symm
  · split at h
    · next hop => cases h; exact hop.symm
    · cases h

theorem encode_of_decodeGroup5 (hg : (fieldG op).toNat = 0x5) (h : decodeGroup5 op = .ok i) : encode i = op := by
  unfold decodeGroup5 at h
  split at h
  · next hn => cases h; exact formatXY_of_group_nibble hg (congrArg BitVec.toNat hn)
  · cases h

theorem encode_of_decodeGroup8 (hg : (fieldG op).toNat = 0x8) (h : decodeGroup8 op = .ok i) : encode i = op := by
  unfold decodeGroup8 at h
  split at h <;> cases h <;> exact formatXY_of_group_nibble hg ‹_›

theorem encode_of_decodeGroup9 (hg : (fieldG op).toNat = 0x9) (h : decodeGroup9 op = .ok i) : encode i = op := by
  unfold decodeGroup9 at h
  split at h
  · next hn => cases h; exact formatXY_of_group_nibble hg (congrArg BitVec.toNat hn)
  · cases h

theorem encode_of_decodeGroupE (hg : (fieldG op).toNat = 0xE) (h : decodeGroupE op = .ok i) : encode i = op := by
  unfold decodeGroupE at h
  split_ifs at h with h1 h2 <;> cases h
  · exact formatXK_of_group_byte hg h1
  · exact formatXK_of_group_byte hg h2

theorem encode_of_decodeGroupF (hg : (fieldG op).toNat = 0xF) (h : decodeGroupF op = .ok i) : encode i = op := by
  unfold decodeGroupF at h
  split_ifs at h <;> cases h <;> exact formatXK_of_group_byte hg ‹_›

/-- Each group of the dispatch puts the fields it read back where they were. -/
theorem encode_of_decodeWord (h : decodeWord op = .ok i) : encode i = op := by
  unfold decodeWord at h
  split at h
  · exact encode_of_decodeGroup0 h
  · next hg => cases h; exact formatA_of_group hg
  · next hg => cases h; exact formatA_of_group hg
  · next hg => cases h; exact formatXK_of_group hg
  · next hg => cases h; exact formatXK_of_group hg
  · next hg => exact encode_of_decodeGroup5 hg h
  · next hg => cases h; exact formatXK_of_group hg
  · next hg => cases h; exact formatXK_of_group hg
  · next hg => exact encode_of_decodeGroup8 hg h
  · next hg => exact encode_of_decodeGroup9 hg h
  · next hg => cases h; exact formatA_of_group hg
  · next hg => cases h; exact formatA_of_group hg
  · next hg => cases h; exact formatXK_of_group hg
  · next hg => cases h; exact formatXY_of_group hg
  · next hg => exact encode_of_decodeGroupE hg h
  · have hg : (fieldG op).toNat = 0xF := by simp only [imp_false] at *; omega
    exact encode_of_decodeGroupF hg h

end

/-- Settles O2, group by group. -/
theorem encodeOfDecode : Obligations.EncodeOfDecode := fun _ _ => encode_of_decodeWord

/-- A word decodes exactly when it is the word of an instruction. -/
theorem decodeWord_eq_ok_iff (op : Word) (i : Instr) : decodeWord op = .ok i ↔ encode i = op :=
  ⟨encode_of_decodeWord, fun h => h ▸ decodeWord_encode i⟩

/-! ### The opcode map (R65) -/

/-- An instruction's word has the pattern of the instruction's own row. -/
theorem encodedWord (i : Instr) : Laws.EncodedWord.Statement i := by
  cases i with
  | cls => exact Laws.EncodedWord.cls
  | ret => exact Laws.EncodedWord.ret
  | jp nnn => exact Laws.EncodedWord.jp nnn
  | call nnn => exact Laws.EncodedWord.call nnn
  | seImm x kk => exact Laws.EncodedWord.seImm x kk
  | sneImm x kk => exact Laws.EncodedWord.sneImm x kk
  | seReg x y => exact Laws.EncodedWord.seReg x y
  | ldImm x kk => exact Laws.EncodedWord.ldImm x kk
  | addImm x kk => exact Laws.EncodedWord.addImm x kk
  | ldReg x y => exact Laws.EncodedWord.ldReg x y
  | orReg x y => exact Laws.EncodedWord.orReg x y
  | andReg x y => exact Laws.EncodedWord.andReg x y
  | xorReg x y => exact Laws.EncodedWord.xorReg x y
  | addReg x y => exact Laws.EncodedWord.addReg x y
  | subReg x y => exact Laws.EncodedWord.subReg x y
  | shr x y => exact Laws.EncodedWord.shr x y
  | subn x y => exact Laws.EncodedWord.subn x y
  | shl x y => exact Laws.EncodedWord.shl x y
  | sneReg x y => exact Laws.EncodedWord.sneReg x y
  | ldI nnn => exact Laws.EncodedWord.ldI nnn
  | jpV0 nnn => exact Laws.EncodedWord.jpV0 nnn
  | rnd x kk => exact Laws.EncodedWord.rnd x kk
  | drw x y n => exact Laws.EncodedWord.drw x y n
  | skp x => exact Laws.EncodedWord.skp x
  | sknp x => exact Laws.EncodedWord.sknp x
  | ldVxDt x => exact Laws.EncodedWord.ldVxDt x
  | ldVxKey x => exact Laws.EncodedWord.ldVxKey x
  | ldDtVx x => exact Laws.EncodedWord.ldDtVx x
  | ldStVx x => exact Laws.EncodedWord.ldStVx x
  | addI x => exact Laws.EncodedWord.addI x
  | ldFont x => exact Laws.EncodedWord.ldFont x
  | ldBcd x => exact Laws.EncodedWord.ldBcd x
  | storeRegs x => exact Laws.EncodedWord.storeRegs x
  | loadRegs x => exact Laws.EncodedWord.loadRegs x

section
variable {op : Word} {r : Row}

/-- A word with a row's pattern has the row's group, low byte and low nibble where the row's mask covers them. -/
theorem fieldG_of_accepts (h : r.accepts op = true) (hm : fieldG r.mask = 0xF) : fieldG op = fieldG r.value := by
  rw [← (eq_of_beq h : op &&& r.mask = r.value), fieldG, fieldG, BitVec.extractLsb'_and,
    show r.mask.extractLsb' 12 4 = _ from hm]
  exact BitVec.and_allOnes.symm

theorem fieldKK_of_accepts (h : r.accepts op = true) (hm : fieldKK r.mask = 0xFF) : fieldKK op = fieldKK r.value := by
  rw [← (eq_of_beq h : op &&& r.mask = r.value), fieldKK, fieldKK, BitVec.extractLsb'_and,
    show r.mask.extractLsb' 0 8 = _ from hm]
  exact BitVec.and_allOnes.symm

theorem fieldN_of_accepts (h : r.accepts op = true) (hm : fieldN r.mask = 0xF) : fieldN op = fieldN r.value := by
  rw [← (eq_of_beq h : op &&& r.mask = r.value), fieldN, fieldN, BitVec.extractLsb'_and,
    show r.mask.extractLsb' 0 4 = _ from hm]
  exact BitVec.and_allOnes.symm

theorem op_of_accepts (h : r.accepts op = true) (hm : r.mask = 0xFFFF) : op = r.value := by
  rw [← (eq_of_beq h : op &&& r.mask = r.value), hm]
  exact BitVec.and_allOnes.symm

theorem formatA_of_accepts (h : r.accepts op = true) (hg : fieldG r.mask = 0xF) :
    formatA (fieldG r.value) (fieldNNN op) = op := by
  rw [← fieldG_of_accepts h hg, formatA_fields]

theorem formatXK_of_accepts (h : r.accepts op = true) (hg : fieldG r.mask = 0xF) :
    formatXK (fieldG r.value) (fieldX op) (fieldKK op) = op := by
  rw [← fieldG_of_accepts h hg, formatXK_fields]

theorem formatXK_of_accepts_byte (h : r.accepts op = true) (hg : fieldG r.mask = 0xF) (hk : fieldKK r.mask = 0xFF) :
    formatXK (fieldG r.value) (fieldX op) (fieldKK r.value) = op := by
  rw [← fieldKK_of_accepts h hk, formatXK_of_accepts h hg]

theorem formatXY_of_accepts (h : r.accepts op = true) (hg : fieldG r.mask = 0xF) :
    formatXY (fieldG r.value) (fieldX op) (fieldY op) (fieldN op) = op := by
  rw [← fieldG_of_accepts h hg, formatXY_fields]

theorem formatXY_of_accepts_nibble (h : r.accepts op = true) (hg : fieldG r.mask = 0xF) (hn : fieldN r.mask = 0xF) :
    formatXY (fieldG r.value) (fieldX op) (fieldY op) (fieldN r.value) = op := by
  rw [← fieldN_of_accepts h hn, formatXY_of_accepts h hg]

/-- Row by row, a word with the row's pattern is the word of an instruction of that row. -/
theorem exists_encode_of_accepts (op : Word) :
    ∀ r ∈ opcodeTable, r.accepts op = true → ∃ i, encode i = op := by
  simp only [opcodeTable, List.cons_append, List.nil_append, List.forall_mem_cons]
  refine ⟨fun h => ⟨.cls, (op_of_accepts h rfl).symm⟩,
    fun h => ⟨.ret, (op_of_accepts h rfl).symm⟩,
    fun h => ⟨.jp (fieldNNN op), formatA_of_accepts (r := .jp) h rfl⟩,
    fun h => ⟨.call (fieldNNN op), formatA_of_accepts (r := .call) h rfl⟩,
    fun h => ⟨.seImm (fieldX op) (fieldKK op), formatXK_of_accepts (r := .seImm) h rfl⟩,
    fun h => ⟨.sneImm (fieldX op) (fieldKK op), formatXK_of_accepts (r := .sneImm) h rfl⟩,
    fun h => ⟨.seReg (fieldX op) (fieldY op), formatXY_of_accepts_nibble (r := .seReg) h rfl rfl⟩,
    fun h => ⟨.ldImm (fieldX op) (fieldKK op), formatXK_of_accepts (r := .ldImm) h rfl⟩,
    fun h => ⟨.addImm (fieldX op) (fieldKK op), formatXK_of_accepts (r := .addImm) h rfl⟩,
    fun h => ⟨.ldReg (fieldX op) (fieldY op), formatXY_of_accepts_nibble (r := .ldReg) h rfl rfl⟩,
    fun h => ⟨.orReg (fieldX op) (fieldY op), formatXY_of_accepts_nibble (r := .orReg) h rfl rfl⟩,
    fun h => ⟨.andReg (fieldX op) (fieldY op), formatXY_of_accepts_nibble (r := .andReg) h rfl rfl⟩,
    fun h => ⟨.xorReg (fieldX op) (fieldY op), formatXY_of_accepts_nibble (r := .xorReg) h rfl rfl⟩,
    fun h => ⟨.addReg (fieldX op) (fieldY op), formatXY_of_accepts_nibble (r := .addReg) h rfl rfl⟩,
    fun h => ⟨.subReg (fieldX op) (fieldY op), formatXY_of_accepts_nibble (r := .subReg) h rfl rfl⟩,
    fun h => ⟨.shr (fieldX op) (fieldY op), formatXY_of_accepts_nibble (r := .shr) h rfl rfl⟩,
    fun h => ⟨.subn (fieldX op) (fieldY op), formatXY_of_accepts_nibble (r := .subn) h rfl rfl⟩,
    fun h => ⟨.shl (fieldX op) (fieldY op), formatXY_of_accepts_nibble (r := .shl) h rfl rfl⟩,
    fun h => ⟨.sneReg (fieldX op) (fieldY op), formatXY_of_accepts_nibble (r := .sneReg) h rfl rfl⟩,
    fun h => ⟨.ldI (fieldNNN op), formatA_of_accepts (r := .ldI) h rfl⟩,
    fun h => ⟨.jpV0 (fieldNNN op), formatA_of_accepts (r := .jpV0) h rfl⟩,
    fun h => ⟨.rnd (fieldX op) (fieldKK op), formatXK_of_accepts (r := .rnd) h rfl⟩,
    fun h => ⟨.drw (fieldX op) (fieldY op) (fieldN op), formatXY_of_accepts (r := .drw) h rfl⟩,
    fun h => ⟨.skp (fieldX op), formatXK_of_accepts_byte (r := .skp) h rfl rfl⟩,
    fun h => ⟨.sknp (fieldX op), formatXK_of_accepts_byte (r := .sknp) h rfl rfl⟩,
    fun h => ⟨.ldVxDt (fieldX op), formatXK_of_accepts_byte (r := .ldVxDt) h rfl rfl⟩,
    fun h => ⟨.ldVxKey (fieldX op), formatXK_of_accepts_byte (r := .ldVxKey) h rfl rfl⟩,
    fun h => ⟨.ldDtVx (fieldX op), formatXK_of_accepts_byte (r := .ldDtVx) h rfl rfl⟩,
    fun h => ⟨.ldStVx (fieldX op), formatXK_of_accepts_byte (r := .ldStVx) h rfl rfl⟩,
    fun h => ⟨.addI (fieldX op), formatXK_of_accepts_byte (r := .addI) h rfl rfl⟩,
    fun h => ⟨.ldFont (fieldX op), formatXK_of_accepts_byte (r := .ldFont) h rfl rfl⟩,
    fun h => ⟨.ldBcd (fieldX op), formatXK_of_accepts_byte (r := .ldBcd) h rfl rfl⟩,
    fun h => ⟨.storeRegs (fieldX op), formatXK_of_accepts_byte (r := .storeRegs) h rfl rfl⟩,
    fun h => ⟨.loadRegs (fieldX op), formatXK_of_accepts_byte (r := .loadRegs) h rfl rfl⟩, ?_⟩
  simp

end

/-- The words with a row's pattern are those that decode. -/
theorem wordWellFormed_iff (op : Word) : wordWellFormed op = true ↔ ∃ i, decodeWord op = .ok i := by
  constructor
  · intro h
    obtain ⟨r, hr, ha⟩ := List.any_eq_true.mp h
    obtain ⟨i, hi⟩ := exists_encode_of_accepts op r hr ha
    exact ⟨i, (decodeWord_eq_ok_iff op i).mpr hi⟩
  · rintro ⟨i, hi⟩
    obtain ⟨hrow, hacc⟩ := encodedWord i
    rw [encode_of_decodeWord hi] at hacc
    exact List.any_eq_true.mpr ⟨i.row, hrow, hacc⟩

/-! ### The undefined words (R66) -/

/-- The groups of undefined words that 30_encoding.md section 3 lists. -/
def IsUndefinedWord (op : Word) : Prop :=
  (fieldG op = 0x0 ∧ op ≠ 0x00E0 ∧ op ≠ 0x00EE) ∨
  ((fieldG op = 0x5 ∨ fieldG op = 0x9) ∧ fieldN op ≠ 0) ∨
  (fieldG op = 0x8 ∧ fieldN op ∈ [0x8, 0x9, 0xA, 0xB, 0xC, 0xD, 0xF]) ∨
  (fieldG op = 0xE ∧ fieldKK op ≠ 0x9E ∧ fieldKK op ≠ 0xA1) ∨
  (fieldG op = 0xF ∧ fieldKK op ∉ [0x07, 0x0A, 0x15, 0x18, 0x1E, 0x29, 0x33, 0x55, 0x65])

section
variable {op : Word} {e : DecodeError}

theorem decodeGroup0_eq_error_iff :
    decodeGroup0 op = .error e ↔ (op ≠ 0x00E0 ∧ op ≠ 0x00EE) ∧ .undefinedWord op = e := by
  unfold decodeGroup0
  split_ifs with h1 h2 <;> simp [*]

theorem decodeGroup5_eq_error_iff : decodeGroup5 op = .error e ↔ fieldN op ≠ 0 ∧ .undefinedWord op = e := by
  unfold decodeGroup5
  split_ifs with h <;> simp [*]

theorem decodeGroup8_eq_error_iff : decodeGroup8 op = .error e ↔
    fieldN op ∈ [0x8, 0x9, 0xA, 0xB, 0xC, 0xD, 0xF] ∧ .undefinedWord op = e := by
  unfold decodeGroup8
  split
  case h_10 =>
    have hn : fieldN op ∈ [0x8, 0x9, 0xA, 0xB, 0xC, 0xD, 0xF] := by
      generalize fieldN op = n at *
      revert n
      decide
    rw [Except.error.injEq, and_iff_right hn]
  all_goals
    next hn =>
      have hnot : fieldN op ∉ [0x8, 0x9, 0xA, 0xB, 0xC, 0xD, 0xF] := by
        rw [fieldN_of_toNat hn]
        decide
      exact iff_of_false (fun h => nomatch h) (fun h => hnot h.1)

theorem decodeGroup9_eq_error_iff : decodeGroup9 op = .error e ↔ fieldN op ≠ 0 ∧ .undefinedWord op = e := by
  unfold decodeGroup9
  split_ifs with h <;> simp [*]

theorem decodeGroupE_eq_error_iff : decodeGroupE op = .error e ↔
    (fieldKK op ≠ 0x9E ∧ fieldKK op ≠ 0xA1) ∧ .undefinedWord op = e := by
  unfold decodeGroupE
  split_ifs with h1 h2 <;> simp [*]

theorem decodeGroupF_eq_error_iff : decodeGroupF op = .error e ↔
    fieldKK op ∉ [0x07, 0x0A, 0x15, 0x18, 0x1E, 0x29, 0x33, 0x55, 0x65] ∧ .undefinedWord op = e := by
  unfold decodeGroupF
  split_ifs <;> simp [*]

/-- The decoder rejects the words of the list, by name, and no others. -/
theorem decodeWord_eq_error_iff : decodeWord op = .error e ↔ IsUndefinedWord op ∧ .undefinedWord op = e := by
  unfold decodeWord
  split
  case h_16 =>
    have hg : (fieldG op).toNat = 0xF := by simp only [imp_false] at *; omega
    simp [IsUndefinedWord, fieldG_of_toNat hg, decodeGroupF_eq_error_iff]
  all_goals
    next hg =>
      simp [IsUndefinedWord, fieldG_of_toNat hg, decodeGroup0_eq_error_iff, decodeGroup5_eq_error_iff,
        decodeGroup8_eq_error_iff, decodeGroup9_eq_error_iff, decodeGroupE_eq_error_iff]

end

/-- The words without a row's pattern are the listed ones, and the decoder rejects each by name. -/
theorem wordWellFormed_eq_false_iff (op : Word) : wordWellFormed op = false ↔ IsUndefinedWord op := by
  rw [← Bool.not_eq_true, wordWellFormed_iff]
  cases hd : decodeWord op with
  | ok i =>
    refine iff_of_false (fun hnone => hnone ⟨i, rfl⟩) (fun hu => ?_)
    exact nomatch hd.symm.trans (decodeWord_eq_error_iff.mpr ⟨hu, rfl⟩)
  | error e => exact iff_of_true (fun ⟨_, hi⟩ => nomatch hi) (decodeWord_eq_error_iff.mp hd).1

theorem decodeWord_of_not_wellFormed {op : Word} (h : wordWellFormed op = false) :
    decodeWord op = .error (.undefinedWord op) :=
  decodeWord_eq_error_iff.mpr ⟨(wordWellFormed_eq_false_iff op).mp h, rfl⟩

/-- Settles O3: a word that decodes is the word of an instruction, which has its own row's pattern. -/
theorem decodeFollowsTheTable : Obligations.DecodeFollowsTheTable := by
  intro op
  refine ⟨fun i hi => ?_, (wordWellFormed_iff op).symm, decodeWord_of_not_wellFormed⟩
  have hword := encodedWord i
  rwa [Laws.EncodedWord.Statement, encode_of_decodeWord hi] at hword

/-- Settles O5: the words without a pattern are those the decoder rejects. -/
theorem undefinedWordsAreTheListed : Obligations.UndefinedWordsAreTheListed := wordWellFormed_eq_false_iff

/-! ### No overlap (R64) -/

/-- Two rows a word could both match agree on the bits that both fix. -/
theorem value_and_mask_of_accepts {op : Word} {r q : Row} (hr : r.accepts op = true) (hq : q.accepts op = true) :
    r.value &&& q.mask = q.value &&& r.mask := by
  rw [← (eq_of_beq hr : op &&& r.mask = r.value), ← (eq_of_beq hq : op &&& q.mask = q.value), BitVec.and_assoc,
    BitVec.and_assoc, BitVec.and_comm r.mask]

/-- Any two rows of the opcode map differ in a bit that both fix. -/
theorem opcodeTable_pairwise_differ :
    opcodeTable.Pairwise (fun r q => r.value &&& q.mask ≠ q.value &&& r.mask) := by decide

/-- Settles O4: the rows differ pairwise in a bit that both fix, and a word has only one value there. -/
theorem rowsDoNotOverlap : Obligations.RowsDoNotOverlap := by
  intro op r hr q hq har haq
  have hsymm : Std.Symm (fun r q : Row => r.value &&& q.mask ≠ q.value &&& r.mask) := ⟨fun _ _ h => h.symm⟩
  by_contra hne
  exact opcodeTable_pairwise_differ.forall hr hq hne (value_and_mask_of_accepts har haq)

/-- Settles O6, by running the decoder on the eight words. -/
theorem sampleWordsDecode : Obligations.SampleWordsDecode := by
  unfold Obligations.SampleWordsDecode
  decide

end Sys2Proof
end

section
/-! Memory and the register block: what a byte reads after a store of consecutive bytes (20_memory.md R46), and which
registers the load of a block leaves (42_index_memory.md R125). -/

namespace Sys2Proof.Machine

theorem Memory.read_writeBytes_add (m : Memory) (a : Nat) (ws : List Byte) {k : Nat} (h : k < ws.length) :
    (m.writeBytes a ws).read (a + k) = ws[k] := by
  rw [Memory.read_writeBytes, dif_pos (by omega)]
  simp only [Nat.add_sub_cancel_left]

theorem Memory.read_writeBytes_outside (m : Memory) {a a' : Nat} {ws : List Byte}
    (h : ¬ (a ≤ a' ∧ a' < a + ws.length)) : (m.writeBytes a ws).read a' = m.read a' := by
  rw [Memory.read_writeBytes, dif_neg h]

theorem State.getV_setVs_blockRegs_of_not_le (s : State) {x r : Reg} (h : ¬ r ≤ x) (bs : List Byte) :
    (s.setVs ((blockRegs true x).zip bs)).getV r = s.getV r := by
  refine State.getV_setVs_of_not_mem _ _ _ fun hmem => h ?_
  obtain ⟨p, hp, rfl⟩ := List.mem_map.mp hmem
  exact (mem_blockRegs_inclusive x p.1).mp (List.of_mem_zip hp).1

end Sys2Proof.Machine
end

section
/-! What an instruction can do, said once: the fatal conditions it can meet (60_exceptions.md section 1), and what it
leaves where it meets none (10_state.md section 11, the column of writes by instructions). The frames over all
instructions are read off these two. -/

namespace Sys2Proof.Machine

/-! ### One equation per instruction -/

section
variable (x y : Reg) (kk : Byte) (s : State)

theorem exec_subReg : exec (.subReg x y) s =
    .next (s.setFlagged x (greaterFlag (s.getV x) (s.getV y)) (s.getV x - s.getV y)) := rfl

theorem exec_shr : exec (.shr x y) s = .next (s.setFlagged x (lowBitFlag (s.getV x)) (s.getV x >>> 1)) := rfl

theorem exec_subn : exec (.subn x y) s =
    .next (s.setFlagged x (greaterFlag (s.getV y) (s.getV x)) (s.getV y - s.getV x)) := rfl

theorem exec_shl : exec (.shl x y) s = .next (s.setFlagged x (highBitFlag (s.getV x)) (s.getV x <<< 1)) := rfl

theorem exec_rnd : exec (.rnd x kk) s = .next (s.drawn.setV x (Config.randomByte s.draws &&& kk)) := rfl

theorem exec_addI : exec (.addI x) s = .next (s.setI (indexSum s.i (s.getV x))) := rfl

theorem exec_ldVxKey : exec (.ldVxKey x) s = .next (s.setMode (.waitKey x)) := rfl

end

/-! ### The fatal conditions of the instructions -/

/-- The fatal condition an instruction meets: which instruction, under which condition, recording what
(R171 to R174). -/
inductive Raises (s : State) : Instr → Fatal → Prop
  | call (nnn : Addr) (h : s.sp.val = 16) : Raises s (.call nnn) ⟨.stackOverflow, 16⟩
  | ret (h : s.sp.val = 0) : Raises s .ret ⟨.stackUnderflow, 0⟩
  | skp (x : Reg) (h : 16 ≤ (s.getV x).toNat) : Raises s (.skp x) ⟨.keyOob, (s.getV x).toNat⟩
  | sknp (x : Reg) (h : 16 ≤ (s.getV x).toNat) : Raises s (.sknp x) ⟨.keyOob, (s.getV x).toNat⟩
  | ldBcd (x : Reg) (h : 4096 ≤ s.i.toNat + 2) : Raises s (.ldBcd x) ⟨.memOob, max s.i.toNat 4096⟩
  | storeRegs (x : Reg) (h : 4096 ≤ s.i.toNat + x.val) : Raises s (.storeRegs x) ⟨.memOob, max s.i.toNat 4096⟩
  | loadRegs (x : Reg) (h : 4096 ≤ s.i.toNat + x.val) : Raises s (.loadRegs x) ⟨.memOob, max s.i.toNat 4096⟩
  | drw (x y : Reg) (n : Nibble) (hn : 0 < n.toNat) (h : 4096 < s.i.toNat + n.toNat) :
      Raises s (.drw x y n) ⟨.memOob, max s.i.toNat 4096⟩

/-- An instruction that meets a fatal condition takes it on the state it found. -/
theorem exec_of_raises {s : State} {i : Instr} {f : Fatal} (h : Raises s i f) : exec i s = .next (raiseFatal f s) := by
  cases h with
  | call nnn h => exact (execCall_eq nnn s).trans (by rw [dif_neg (by omega)])
  | ret h => exact (execRet_eq s).trans (by rw [dif_pos h])
  | skp x h => exact (execSkp_eq x s).trans (by rw [dif_neg (by omega)])
  | sknp x h => exact (execSknp_eq x s).trans (by rw [dif_neg (by omega)])
  | ldBcd x h => exact (execLdBcd_eq x s).trans (by rw [if_neg (by omega)])
  | storeRegs x h => exact (execStoreRegs_eq x s).trans (by rw [if_neg (by omega)])
  | loadRegs x h => exact (execLoadRegs_eq x s).trans (by rw [if_neg (by omega)])
  | drw x y n hn h => exact (execDrw_eq x y n s).trans (by rw [if_neg (by omega)])

/-! ### The instructions that can meet one, where they do not -/

section
variable {s : State}

theorem exec_call_of_lt (nnn : Addr) (h : s.sp.val < 16) : exec (.call nnn) s = .next
    { s with pc := addrWord nnn, stack := s.stack.set s.sp.val s.pc, sp := ⟨s.sp.val + 1, by omega⟩ } :=
  (execCall_eq nnn s).trans (by rw [dif_pos h])

theorem exec_ret_of_pos (h : 0 < s.sp.val) : exec .ret s = .next
    { s with pc := s.stack[s.sp.val - 1]'(by omega), sp := ⟨s.sp.val - 1, by omega⟩ } :=
  (execRet_eq s).trans (by rw [dif_neg (by omega)])

theorem exec_skp_of_lt {x : Reg} (h : (s.getV x).toNat < 16) :
    exec (.skp x) s = .next (s.skipIf s.key[(s.getV x).toNat]) :=
  (execSkp_eq x s).trans (by rw [dif_pos h])

theorem exec_sknp_of_lt {x : Reg} (h : (s.getV x).toNat < 16) :
    exec (.sknp x) s = .next (s.skipIf (!s.key[(s.getV x).toNat])) :=
  (execSknp_eq x s).trans (by rw [dif_pos h])

theorem exec_ldBcd_of_lt (x : Reg) (h : s.i.toNat + 2 < 4096) :
    exec (.ldBcd x) s = .next (s.setMem (s.mem.writeBytes s.i.toNat (bcdDigits (s.getV x)))) :=
  (execLdBcd_eq x s).trans (by rw [if_pos (by omega)])

theorem exec_storeRegs_of_lt {x : Reg} (h : s.i.toNat + x.val < 4096) : exec (.storeRegs x) s = .next
    (s.setMem (s.mem.writeBytes s.i.toNat (s.getVs (blockRegs true x)))) :=
  (execStoreRegs_eq x s).trans (by rw [if_pos h])

theorem exec_loadRegs_of_lt {x : Reg} (h : s.i.toNat + x.val < 4096) : exec (.loadRegs x) s = .next
    (s.setVs ((blockRegs true x).zip ((List.range' s.i.toNat (x.val + 1)).map s.mem.read))) :=
  (execLoadRegs_eq x s).trans (by rw [if_pos h])

/-- The framebuffer and the collision of the sprite of n bytes at I, drawn where Vx and Vy say (R141). -/
def State.drawnSprite (s : State) (x y : Reg) (n : Nibble) : Framebuffer × Bool :=
  drawSprite s.fb (s.getV x) (s.getV y) ((List.range' s.i.toNat n.toNat).map s.mem.read)

theorem exec_drw_of_fits (x y : Reg) {n : Nibble} (h : n.toNat = 0 ∨ s.i.toNat + n.toNat ≤ 4096) :
    exec (.drw x y n) s = .next
      ((s.setFb (s.drawnSprite x y n).1).setV vf (flagByte (s.drawnSprite x y n).2)) :=
  (execDrw_eq x y n s).trans (by rw [if_pos h]; rfl)

end

/-! ### What an instruction leaves -/

/-- A skip: the instructions of R85 to R88, R150 and R151. -/
def IsSkip (i : Instr) : Prop :=
  (∃ x kk, i = .seImm x kk ∨ i = .sneImm x kk) ∨ (∃ x y, i = .seReg x y ∨ i = .sneReg x y) ∨
    ∃ x, i = .skp x ∨ i = .sknp x

/-- The instructions that write I (R120 to R122). -/
def WritesIndex (i : Instr) : Prop := (∃ nnn, i = .ldI nnn) ∨ ∃ x, i = .addI x ∨ i = .ldFont x

/-- The stores and how many bytes each writes from I on (R123, R124). -/
inductive Stores : Instr → Nat → Prop
  | bcd (x : Reg) : Stores (.ldBcd x) 3
  | regs (x : Reg) : Stores (.storeRegs x) (x.val + 1)

/-- What an instruction that meets no fatal condition leaves of the state s it found. -/
inductive Completes (s : State) : Instr → State → Prop
  | regs (i : Instr) (v : Vector Byte 16) (h : ∀ r, r ∉ dests i → State.getV { s with v := v } r = s.getV r) :
      Completes s i { s with v := v }
  | rnd (x : Reg) (kk b : Byte) : Completes s (.rnd x kk) (s.drawn.setV x b)
  | skip (i : Instr) (hi : IsSkip i) (c : Bool) : Completes s i (s.skipIf c)
  | jp (nnn : Addr) : Completes s (.jp nnn) (s.setPc (addrWord nnn))
  | jpV0 (nnn : Addr) : Completes s (.jpV0 nnn) (s.setPc (addrWord nnn + byteWord (s.getV 0)))
  | call (nnn : Addr) (h : s.sp.val < 16) : Completes s (.call nnn)
      { s with pc := addrWord nnn, stack := s.stack.set s.sp.val s.pc, sp := ⟨s.sp.val + 1, by omega⟩ }
  | ret (h : 0 < s.sp.val) : Completes s .ret
      { s with pc := s.stack[s.sp.val - 1]'(by omega), sp := ⟨s.sp.val - 1, by omega⟩ }
  | index (i : Instr) (hi : WritesIndex i) (w : Word) : Completes s i (s.setI w)
  | store (i : Instr) (ws : List Byte) (hi : Stores i ws.length) (h : s.i.toNat + ws.length ≤ 4096) :
      Completes s i (s.setMem (s.mem.writeBytes s.i.toNat ws))
  | cls : Completes s .cls (s.setFb Framebuffer.clear)
  | drw (x y : Reg) (n : Nibble) (fb : Framebuffer) (b : Byte) : Completes s (.drw x y n) ((s.setFb fb).setV vf b)
  | ldDtVx (x : Reg) : Completes s (.ldDtVx x) { s with dt := s.getV x }
  | ldStVx (x : Reg) : Completes s (.ldStVx x) { s with st := s.getV x }
  | ldVxKey (x : Reg) : Completes s (.ldVxKey x) (s.setMode (.waitKey x))

section
variable {i : Instr} {s t : State}

/-- A write of one register completes an instruction that has it as a destination. -/
theorem Completes.setV {x : Reg} (hx : x ∈ dests i) (b : Byte) : Completes s i (s.setV x b) :=
  .regs i _ fun r hr => (onlyReg_setV s x b).1 r (fun h => hr (h ▸ hx))

/-- A write of flag and result completes an instruction that has both as destinations. -/
theorem Completes.setFlagged {x : Reg} (hx : x ∈ dests i) (hf : vf ∈ dests i) (g b : Byte) :
    Completes s i (s.setFlagged x g b) :=
  .regs i _ fun r hr => (onlyRegAndFlag_setFlagged s x g b).1 r (fun h => hr (h ▸ hx)) (fun h => hr (h ▸ hf))

theorem mem_dests_loadRegs {x r : Reg} : r ∈ dests (.loadRegs x) ↔ r ≤ x := by
  revert x r; decide

/-- A load of the register block leaves every register outside V0..Vx. -/
theorem Completes.loadRegs (x : Reg) (bs : List Byte) :
    Completes s (.loadRegs x) (s.setVs ((blockRegs true x).zip bs)) := by
  rw [State.setVs_frame]
  refine .regs _ _ fun r hr => ?_
  rw [← State.setVs_frame]
  exact State.getV_setVs_blockRegs_of_not_le s (mt mem_dests_loadRegs.mpr hr) bs

/-- Every instruction answers a next state: the fatal condition it met, or its completion. -/
theorem exec_answers (i : Instr) (s : State) :
    (∃ f, Raises s i f ∧ exec i s = .next (raiseFatal f s)) ∨ ∃ t, Completes s i t ∧ exec i s = .next t := by
  have raised {i f} (h : Raises s i f) :
      (∃ f, Raises s i f ∧ exec i s = .next (raiseFatal f s)) ∨ ∃ t, Completes s i t ∧ exec i s = .next t :=
    .inl ⟨f, h, exec_of_raises h⟩
  cases i with
  | cls => exact .inr ⟨_, .cls, exec_cls s⟩
  | ret =>
    by_cases h : s.sp.val = 0
    · exact raised (.ret h)
    · exact .inr ⟨_, .ret (by omega), exec_ret_of_pos (by omega)⟩
  | jp nnn => exact .inr ⟨_, .jp nnn, exec_jp nnn s⟩
  | call nnn =>
    by_cases h : s.sp.val < 16
    · exact .inr ⟨_, .call nnn h, exec_call_of_lt nnn h⟩
    · exact raised (.call nnn (by omega))
  | seImm x kk => exact .inr ⟨_, .skip _ (.inl ⟨x, kk, .inl rfl⟩) _, exec_seImm x kk s⟩
  | sneImm x kk => exact .inr ⟨_, .skip _ (.inl ⟨x, kk, .inr rfl⟩) _, exec_sneImm x kk s⟩
  | seReg x y => exact .inr ⟨_, .skip _ (.inr (.inl ⟨x, y, .inl rfl⟩)) _, exec_seReg x y s⟩
  | ldImm x kk => exact .inr ⟨_, .setV (by simp [dests]) _, exec_ldImm x kk s⟩
  | addImm x kk => exact .inr ⟨_, .setV (by simp [dests]) _, exec_addImm x kk s⟩
  | ldReg x y => exact .inr ⟨_, .setV (by simp [dests]) _, exec_ldReg x y s⟩
  | orReg x y => exact .inr ⟨_, .setV (by simp [dests]) _, exec_orReg x y s⟩
  | andReg x y => exact .inr ⟨_, .setV (by simp [dests]) _, exec_andReg x y s⟩
  | xorReg x y => exact .inr ⟨_, .setV (by simp [dests]) _, exec_xorReg x y s⟩
  | addReg x y => exact .inr ⟨_, .setFlagged (by simp [dests]) (by simp [dests]) _ _, exec_addReg x y s⟩
  | subReg x y => exact .inr ⟨_, .setFlagged (by simp [dests]) (by simp [dests]) _ _, exec_subReg x y s⟩
  | shr x y => exact .inr ⟨_, .setFlagged (by simp [dests]) (by simp [dests]) _ _, exec_shr x y s⟩
  | subn x y => exact .inr ⟨_, .setFlagged (by simp [dests]) (by simp [dests]) _ _, exec_subn x y s⟩
  | shl x y => exact .inr ⟨_, .setFlagged (by simp [dests]) (by simp [dests]) _ _, exec_shl x y s⟩
  | sneReg x y => exact .inr ⟨_, .skip _ (.inr (.inl ⟨x, y, .inr rfl⟩)) _, exec_sneReg x y s⟩
  | ldI nnn => exact .inr ⟨_, .index _ (.inl ⟨nnn, rfl⟩) _, exec_ldI nnn s⟩
  | jpV0 nnn => exact .inr ⟨_, .jpV0 nnn, exec_jpV0 nnn s⟩
  | rnd x kk => exact .inr ⟨_, .rnd x kk _, exec_rnd x kk s⟩
  | drw x y n =>
    by_cases h : n.toNat = 0 ∨ s.i.toNat + n.toNat ≤ 4096
    · exact .inr ⟨_, .drw x y n _ _, exec_drw_of_fits x y h⟩
    · exact raised (.drw x y n (by omega) (by omega))
  | skp x =>
    by_cases h : (s.getV x).toNat < 16
    · exact .inr ⟨_, .skip _ (.inr (.inr ⟨x, .inl rfl⟩)) _, exec_skp_of_lt h⟩
    · exact raised (.skp x (by omega))
  | sknp x =>
    by_cases h : (s.getV x).toNat < 16
    · exact .inr ⟨_, .skip _ (.inr (.inr ⟨x, .inr rfl⟩)) _, exec_sknp_of_lt h⟩
    · exact raised (.sknp x (by omega))
  | ldVxDt x => exact .inr ⟨_, .setV (by simp [dests]) _, exec_ldVxDt x s⟩
  | ldVxKey x => exact .inr ⟨_, .ldVxKey x, exec_ldVxKey x s⟩
  | ldDtVx x => exact .inr ⟨_, .ldDtVx x, exec_ldDtVx x s⟩
  | ldStVx x => exact .inr ⟨_, .ldStVx x, exec_ldStVx x s⟩
  | addI x => exact .inr ⟨_, .index _ (.inr ⟨x, .inl rfl⟩) _, exec_addI x s⟩
  | ldFont x => exact .inr ⟨_, .index _ (.inr ⟨x, .inr rfl⟩) _, exec_ldFont x s⟩
  | ldBcd x =>
    by_cases h : s.i.toNat + 2 < 4096
    · exact .inr ⟨_, .store _ (bcdDigits (s.getV x)) (.bcd x) (by simp [bcdDigits]; omega), exec_ldBcd_of_lt x h⟩
    · exact raised (.ldBcd x (by omega))
  | storeRegs x =>
    by_cases h : s.i.toNat + x.val < 4096
    · have hlen : (s.getVs (blockRegs true x)).length = x.val + 1 := by
        simp [State.getVs, length_blockRegs, blockCount]
      exact .inr ⟨_, .store _ _ (hlen ▸ .regs x) (by omega), exec_storeRegs_of_lt h⟩
    · exact raised (.storeRegs x (by omega))
  | loadRegs x =>
    by_cases h : s.i.toNat + x.val < 4096
    · exact .inr ⟨_, .loadRegs x _, exec_loadRegs_of_lt h⟩
    · exact raised (.loadRegs x (by omega))

/-- Inversion of `exec`: the state it answers is a fatal condition taken, or the completion of the instruction. -/
theorem exec_cases (h : exec i s = .next t) : (∃ f, Raises s i f ∧ t = raiseFatal f s) ∨ Completes s i t := by
  obtain ⟨f, hf, he⟩ | ⟨u, hu, he⟩ := exec_answers i s <;> rw [he] at h <;> cases h
  · exact .inl ⟨f, hf, rfl⟩
  · exact .inr hu

theorem exists_exec_eq_next (i : Instr) (s : State) : ∃ t, exec i s = .next t := by
  obtain ⟨f, -, he⟩ | ⟨t, -, he⟩ := exec_answers i s
  · exact ⟨_, he⟩
  · exact ⟨t, he⟩

end

end Sys2Proof.Machine
end

section
/-! The frames over all instructions (10_state.md section 11, 60_exceptions.md sections 1, 2 and 4), each read off what
an instruction can do. -/

namespace Sys2Proof.Machine

/-! ### Fatal conditions -/

/-- A completed instruction does not halt the core. -/
theorem Completes.mode_ne_halted {i : Instr} {s t : State} (h : Completes s i t) (hs : s.mode = .run)
    (cause : FatalCause) (info : Nat) : t.mode ≠ .halted cause info := by
  cases h <;> simp [hs]

/-- An instruction that halts a running core has met a fatal condition, and has done nothing else. -/
theorem exec_halted {i : Instr} {s t : State} {cause : FatalCause} {info : Nat} (hs : s.mode = .run)
    (he : exec i s = .next t) (ht : t.mode = .halted cause info) :
    Raises s i ⟨cause, info⟩ ∧ t = { s with mode := .halted cause info } := by
  obtain ⟨f, hf, rfl⟩ | hc := exec_cases he
  · cases ht
    exact ⟨hf, rfl⟩
  · exact absurd ht (hc.mode_ne_halted hs cause info)

/-- Settles O12: the instruction that halts has met one of the fatal conditions listed once for all instructions. -/
theorem fatalCausesByInstruction : Obligations.FatalCausesByInstruction := by
  intro i s t cause info hs he ht
  obtain ⟨hr, -⟩ := exec_halted hs he ht
  cases hr with
  | call nnn h => exact .inl ⟨⟨nnn, rfl⟩, rfl, rfl, h⟩
  | ret h => exact .inr (.inl ⟨rfl, rfl, rfl, h⟩)
  | skp x h => exact .inr (.inr (.inl ⟨x, .inl rfl, rfl, rfl, h⟩))
  | sknp x h => exact .inr (.inr (.inl ⟨x, .inr rfl, rfl, rfl, h⟩))
  | ldBcd x h => exact .inr (.inr (.inr ⟨.inl ⟨x, rfl, h⟩, rfl, rfl⟩))
  | storeRegs x h => exact .inr (.inr (.inr ⟨.inr (.inl ⟨x, .inl rfl, h⟩), rfl, rfl⟩))
  | loadRegs x h => exact .inr (.inr (.inr ⟨.inr (.inl ⟨x, .inr rfl, h⟩), rfl, rfl⟩))
  | drw x y n hn h => exact .inr (.inr (.inr ⟨.inr (.inr ⟨x, y, n, rfl, hn, h⟩), rfl, rfl⟩))

/-! ### Frames -/

/-- Settles O49: a completion writes only registers among the destinations, and a fatal condition writes none. -/
theorem registerFrame : Obligations.RegisterFrame := by
  intro i s t r he hr
  obtain ⟨f, -, rfl⟩ | hc := exec_cases he
  · exact State.getV_raiseFatal s f r
  · cases hc with
    | regs i v h => exact h r hr
    | rnd x kk b =>
      have hne : r ≠ x := by simpa [dests] using hr
      rw [State.getV_setV, if_neg hne, State.getV_drawn]
    | drw x y n fb b =>
      have hne : r ≠ vf := by simpa [dests] using hr
      rw [State.getV_setV, if_neg hne, State.getV_setFb]
    | _ => simp [State.getV]

/-- Settles O50: only a store changes memory, and it writes its bytes from I on. -/
theorem memoryFrame : Obligations.MemoryFrame := by
  intro i s t a he ha
  obtain ⟨f, -, rfl⟩ | hc := exec_cases he
  · exact absurd rfl ha
  · cases hc with
    | store i ws hi h =>
      have hrange : s.i.toNat ≤ a ∧ a < s.i.toNat + ws.length := by
        by_contra hout
        exact ha (s.mem.read_writeBytes_outside hout)
      generalize ws.length = k at hi hrange
      cases hi with
      | bcd x => exact .inl ⟨⟨x, rfl⟩, by omega⟩
      | regs x => exact .inr ⟨x, rfl, by omega⟩
    | _ => simp at ha

/-- The instructions that can meet a fatal condition. -/
theorem Raises.instr {s : State} {i : Instr} {f : Fatal} (h : Raises s i f) :
    (∃ nnn, i = .call nnn) ∨ i = .ret ∨ (∃ x y n, i = .drw x y n) ∨
      ∃ x, i = .skp x ∨ i = .sknp x ∨ i = .ldBcd x ∨ i = .storeRegs x ∨ i = .loadRegs x := by
  cases h <;> simp

/-- Settles O51: each completion writes the special state of its own instruction only, and a fatal condition MODE. -/
theorem specialStateFrame : Obligations.SpecialStateFrame := by
  intro i s t he
  obtain ⟨f, hf, rfl⟩ | hc := exec_cases he
  · have same {α : Type} {a : α} {P : Prop} (hne : a ≠ a) : P := absurd rfl hne
    exact ⟨same, same, same, same, same, same, fun _ hx => (nomatch hx),
      fun _ => .inr ⟨⟨f.cause, f.info, rfl⟩, hf.instr⟩, same, rfl, rfl, rfl⟩
  · cases hc with
    | index i hi w =>
      refine ⟨fun _ => hi, ?_⟩
      simp +contextual
    | _ => simp +contextual

/-! ### The sound timer is not read -/

/-- The fatal condition an instruction meets does not depend on ST. -/
theorem Raises.with_st {s : State} {i : Instr} {f : Fatal} (h : Raises s i f) (b : Byte) :
    Raises { s with st := b } i f := by
  cases h with
  | call nnn h => exact .call nnn h
  | ret h => exact .ret h
  | skp x h => exact .skp x h
  | sknp x h => exact .sknp x h
  | ldBcd x h => exact .ldBcd x h
  | storeRegs x h => exact .storeRegs x h
  | loadRegs x h => exact .loadRegs x h
  | drw x y n hn h => exact .drw x y n hn h

/-- A skip does the same with another value in ST. -/
theorem State.skipIf_with_st (s : State) (b : Byte) (c : Bool) :
    { State.skipIf { s with st := b } c with st := (s.skipIf c).st } = s.skipIf c := by
  cases c <;> rfl

/-- Writes of registers do the same with another value in ST. -/
theorem State.setVs_with_st (s : State) (b : Byte) (ps : List (Reg × Byte)) :
    { State.setVs { s with st := b } ps with st := (s.setVs ps).st } = s.setVs ps := by
  induction ps generalizing s with
  | nil => rfl
  | cons p ps ih => exact ih (s.setV p.1 p.2)

/-- Settles O52: with another value in ST an instruction meets the same fatal condition, or makes the same writes. -/
theorem soundTimerIsNotRead : Obligations.SoundTimerIsNotRead := by
  intro i s b
  have raised {i f} (h : Raises s i f) :
      ∃ t u, exec i s = .next t ∧ exec i { s with st := b } = .next u ∧ { u with st := t.st } = t :=
    ⟨_, _, exec_of_raises h, exec_of_raises (h.with_st b), rfl⟩
  cases i with
  | ret =>
    by_cases h : s.sp.val = 0
    · exact raised (.ret h)
    · have hpos := Nat.pos_of_ne_zero h
      exact ⟨_, _, exec_ret_of_pos hpos, exec_ret_of_pos (s := { s with st := b }) hpos, rfl⟩
  | call nnn =>
    by_cases h : s.sp.val < 16
    · exact ⟨_, _, exec_call_of_lt nnn h, exec_call_of_lt (s := { s with st := b }) nnn h, rfl⟩
    · exact raised (.call nnn (by omega))
  | seImm x kk => exact ⟨_, _, exec_seImm x kk s, exec_seImm x kk _, s.skipIf_with_st b _⟩
  | sneImm x kk => exact ⟨_, _, exec_sneImm x kk s, exec_sneImm x kk _, s.skipIf_with_st b _⟩
  | seReg x y => exact ⟨_, _, exec_seReg x y s, exec_seReg x y _, s.skipIf_with_st b _⟩
  | sneReg x y => exact ⟨_, _, exec_sneReg x y s, exec_sneReg x y _, s.skipIf_with_st b _⟩
  | skp x =>
    by_cases h : (s.getV x).toNat < 16
    · exact ⟨_, _, exec_skp_of_lt h, exec_skp_of_lt (s := { s with st := b }) h, s.skipIf_with_st b _⟩
    · exact raised (.skp x (by omega))
  | sknp x =>
    by_cases h : (s.getV x).toNat < 16
    · exact ⟨_, _, exec_sknp_of_lt h, exec_sknp_of_lt (s := { s with st := b }) h, s.skipIf_with_st b _⟩
    · exact raised (.sknp x (by omega))
  | drw x y n =>
    by_cases h : n.toNat = 0 ∨ s.i.toNat + n.toNat ≤ 4096
    · exact ⟨_, _, exec_drw_of_fits x y h, exec_drw_of_fits x y h, rfl⟩
    · exact raised (.drw x y n (by omega) (by omega))
  | ldBcd x =>
    by_cases h : s.i.toNat + 2 < 4096
    · exact ⟨_, _, exec_ldBcd_of_lt x h, exec_ldBcd_of_lt x h, rfl⟩
    · exact raised (.ldBcd x (by omega))
  | storeRegs x =>
    by_cases h : s.i.toNat + x.val < 4096
    · exact ⟨_, _, exec_storeRegs_of_lt h, exec_storeRegs_of_lt h, rfl⟩
    · exact raised (.storeRegs x (by omega))
  | loadRegs x =>
    by_cases h : s.i.toNat + x.val < 4096
    · exact ⟨_, _, exec_loadRegs_of_lt h, exec_loadRegs_of_lt h, s.setVs_with_st b _⟩
    · exact raised (.loadRegs x (by omega))
  | _ => exact ⟨_, _, rfl, rfl, rfl⟩

/-! ### Where PC is left -/

/-- Settles O53: the skips add 2, the jumps and the call set PC to their target, and a return to the slot it pops. -/
theorem pcAfterInstruction : Obligations.PcAfterInstruction := by
  intro i s t he hpc
  obtain ⟨f, -, rfl⟩ | hc := exec_cases he
  · exact absurd rfl hpc
  · cases hc with
    | skip i hi c =>
      cases c with
      | false => exact absurd rfl hpc
      | true => exact .inl ⟨rfl, hi⟩
    | jp nnn => exact .inr (.inl ⟨nnn, .inl rfl, toNat_addrWord nnn⟩)
    | call nnn h => exact .inr (.inl ⟨nnn, .inr rfl, toNat_addrWord nnn⟩)
    | jpV0 nnn => exact .inr (.inr (.inl ⟨nnn, rfl, toNat_addrWord_add_byteWord nnn (s.getV 0)⟩))
    | ret h => exact .inr (.inr (.inr ⟨rfl, ⟨s.sp.val - 1, by omega⟩, by simp; omega, rfl⟩))
    | _ => simp at hpc

end Sys2Proof.Machine
end

section
/-! The host's operations (60_exceptions.md R179, R182 to R188; 70_reset_and_hazards.md R210, R212): one equation per
case of each, and what a halted and a waiting core do with them. -/

namespace Sys2Proof.Machine

/-! ### The modes -/

section
variable {s : State} {x : Reg}

theorem mode_ne_run_of_halted (h : s.isHalted = true) : s.mode ≠ .run := by
  intro hm
  rw [State.isHalted, hm] at h
  cases h

theorem isHalted_of_run (h : s.mode = .run) : s.isHalted = false := by rw [State.isHalted, h]

theorem isHalted_of_waitKey (h : s.mode = .waitKey x) : s.isHalted = false := by rw [State.isHalted, h]

theorem mode_ne_run_of_waitKey (h : s.mode = .waitKey x) : s.mode ≠ .run := by rw [h]; exact nofun

end

/-! ### One equation per case -/

section
variable {s : State} {k : Nat} {x : Reg} {buf : List Byte}

theorem coreStep_of_not_run (hm : s.mode ≠ .run) : coreStep s = .next s := by
  obtain ⟨-, h⟩ | ⟨h, -⟩ | ⟨h, -⟩ := coreStep_cases s
  · exact h
  · exact absurd h hm
  · exact absurd h hm

theorem hostLoad_of_fits (hm : s.mode = .run) (h : 512 + buf.length < 4096) :
    hostLoad buf s = { s with mem := s.mem.writeBytes 512 buf, pc := 512 } := by
  have hfits : buf.length + Config.loadAddr < Config.memSize := by rw [Nat.add_comm]; exact h
  simp only [hostLoad, hm]
  rw [if_pos hfits]

theorem hostLoad_of_too_large (hm : s.mode = .run) (h : 4096 ≤ 512 + buf.length) :
    hostLoad buf s = raiseFatal ⟨.loadTooLarge, buf.length⟩ s := by
  have hlarge : ¬ buf.length + Config.loadAddr < Config.memSize := by rw [Nat.add_comm, Nat.not_lt]; exact h
  simp only [hostLoad, hm]
  rw [if_neg hlarge]

theorem hostLoad_of_not_run (hm : s.mode ≠ .run) : hostLoad buf s = s := by
  unfold hostLoad
  split
  · next h => exact absurd h hm
  · rfl

theorem hostTick_of_run (hm : s.mode = .run) : hostTick s = { s with dt := countDown s.dt, st := countDown s.st } := by
  rw [hostTick, hm]

theorem hostTick_of_not_run (hm : s.mode ≠ .run) : hostTick s = s := by
  unfold hostTick
  split
  · next h => exact absurd h hm
  · rfl

theorem setKey_of_halted (d : Bool) (h : s.isHalted = true) : setKey k d s = s := by rw [setKey, if_pos h]

theorem setKey_of_lt (d : Bool) (h : s.isHalted = false) (hk : k < 16) :
    setKey k d s = { s with key := s.key.set k d } := by
  rw [setKey, if_neg (Bool.eq_false_iff.mp h), dif_pos hk]

theorem setKey_of_ge (d : Bool) (h : s.isHalted = false) (hk : 16 ≤ k) :
    setKey k d s = raiseFatal ⟨.keyOob, k⟩ s := by
  rw [setKey, if_neg (Bool.eq_false_iff.mp h), dif_neg (Nat.not_lt.mpr hk)]

theorem hostKeyEvent_of_halted (h : s.isHalted = true) : hostKeyEvent k s = s := by rw [hostKeyEvent, if_pos h]

theorem hostKeyEvent_of_run (hm : s.mode = .run) (hk : k < 16) : hostKeyEvent k s = s := by
  simp only [hostKeyEvent, isHalted_of_run hm, hm, if_pos hk]
  rfl

theorem hostKeyEvent_of_waitKey (hm : s.mode = .waitKey x) (hk : k < 16) :
    hostKeyEvent k s = (s.setV x (BitVec.ofNat 8 k)).setMode .run := by
  simp only [hostKeyEvent, isHalted_of_waitKey hm, hm, if_pos hk]
  rfl

theorem hostKeyEvent_of_ge (h : s.isHalted = false) (hk : 16 ≤ k) :
    hostKeyEvent k s = raiseFatal ⟨.keyOob, k⟩ s := by
  rw [hostKeyEvent, if_neg (Bool.eq_false_iff.mp h), if_neg (Nat.not_lt.mpr hk)]

theorem hostSoundConsume_of_halted (h : s.isHalted = true) :
    hostSoundConsume s = { s with reply := some (.sound s.st) } := by rw [hostSoundConsume, if_pos h]

theorem hostSoundConsume_of_not_halted (h : s.isHalted = false) :
    hostSoundConsume s = { s with reply := some (.sound s.st), st := 0 } := by
  rw [hostSoundConsume, if_neg (Bool.eq_false_iff.mp h)]

end

section
variable {s : State} {x y : Nat}

theorem hostIsSet_of_lt (hx : x < 64) (hy : y < 32) :
    hostIsSet x y s = { s with reply := some (.pixel (s.fb.pixel ⟨y, hy⟩ ⟨x, hx⟩)) } := by
  rw [hostIsSet, dif_pos ⟨hx, hy⟩]

theorem hostIsSet_of_ge_of_halted (hxy : 64 ≤ x ∨ 32 ≤ y) (h : s.isHalted = true) :
    hostIsSet x y s = { s with reply := some (.pixel false) } := by
  rw [hostIsSet, dif_neg (by omega), if_pos h]

theorem hostIsSet_of_ge (hxy : 64 ≤ x ∨ 32 ≤ y) (h : s.isHalted = false) :
    hostIsSet x y s = raiseFatal ⟨.screenOob, y * 256 + x⟩ s := by
  rw [hostIsSet, dif_neg (by omega), if_neg (Bool.eq_false_iff.mp h)]

end

theorem toNat_countDown (t : Byte) : (countDown t).toNat = t.toNat - 1 := by
  by_cases h : t = 0
  · rw [countDown, if_pos h, h]; rfl
  · have hpos : 1 ≤ t.toNat := Nat.one_le_iff_ne_zero.mpr (fun h0 => h (BitVec.eq_of_toNat_eq h0))
    rw [countDown, if_neg h, BitVec.toNat_sub_of_le hpos]
    rfl

/-! ### Operation by operation -/

/-- The answers of two equal states. -/
theorem next_of_eq {t u : State} (h : t = u) : (.next t : Host.Outcome State Fault Refusal) = .next u := congrArg _ h

/-- Settles O54: a tick counts both timers down in RUN. -/
theorem tickCountsDown : Obligations.TickCountsDown := by
  intro s
  refine ⟨fun hm => ?_, fun hm => next_of_eq (hostTick_of_not_run hm)⟩
  exact ⟨_, next_of_eq (hostTick_of_run hm), toNat_countDown s.dt, toNat_countDown s.st, rfl⟩

/-- A write of one key: the key written, every other key and every other field as before. -/
theorem setKey_spec {s : State} {k : Nat} (d : Bool) (h : s.isHalted = false) (hk : k < 16) :
    ∃ t, setKey k d s = t ∧ t.key[k] = d ∧ (∀ j : Fin 16, j.val ≠ k → t.key[j] = s.key[j]) ∧
      t = { s with key := t.key } := by
  refine ⟨_, setKey_of_lt d h hk, Vector.getElem_set_self .., fun j hj => ?_, rfl⟩
  exact Vector.getElem_set_ne hk j.isLt hj.symm

/-- Settles O55: in range the key is written, out of range the fatal condition is taken. -/
theorem keyOperations : Obligations.KeyOperations := by
  intro s k h
  refine ⟨fun hk => ⟨?_, ?_, fun hm => next_of_eq (hostKeyEvent_of_run hm hk)⟩, fun hk => ?_⟩
  · obtain ⟨t, ht, hspec⟩ := setKey_spec true h hk
    exact ⟨t, next_of_eq ht, hspec⟩
  · obtain ⟨t, ht, hspec⟩ := setKey_spec false h hk
    exact ⟨t, next_of_eq ht, hspec⟩
  · exact ⟨next_of_eq (setKey_of_ge true h hk), next_of_eq (setKey_of_ge false h hk),
      next_of_eq (hostKeyEvent_of_ge h hk)⟩

/-- Settles O56: both operations answer ST, and only the second writes it. -/
theorem soundReadAndConsume : Obligations.SoundReadAndConsume := fun _ =>
  ⟨rfl, fun h => next_of_eq (hostSoundConsume_of_not_halted h), fun h => next_of_eq (hostSoundConsume_of_halted h)⟩

/-- Settles O57, by the three cases of `is_set`. -/
theorem pixelRead : Obligations.PixelRead := fun _ _ _ =>
  ⟨fun hx hy => next_of_eq (hostIsSet_of_lt hx hy), fun hxy h => next_of_eq (hostIsSet_of_ge_of_halted hxy h),
    fun hxy h => next_of_eq (hostIsSet_of_ge hxy h)⟩

/-- Settles O58: a load that fits is one write of consecutive bytes and one of PC. -/
theorem loadPlacesProgram : Obligations.LoadPlacesProgram := by
  intro s buf
  refine ⟨fun hm hfits => ?_, fun hm hlarge => next_of_eq (hostLoad_of_too_large hm hlarge),
    fun hm => next_of_eq (hostLoad_of_not_run hm)⟩
  exact ⟨_, next_of_eq (hostLoad_of_fits hm hfits), rfl, fun k hk => s.mem.read_writeBytes_add 512 buf hk,
    fun a ha => s.mem.read_writeBytes_outside ha, rfl⟩

/-- A key event in range ends the wait: the key goes to the register that waits for it (R186). -/
theorem keyEvent_resumes {s : State} {x : Reg} {k : Nat} (hm : s.mode = .waitKey x) (hk : k < 16) :
    ∃ t, perform (.keyEvent k) s = .next t ∧ (t.getV x).toNat = k ∧ t.mode = .run ∧
      (∀ r, r ≠ x → t.getV r = s.getV r) ∧ t = { s with v := t.v, mode := t.mode } := by
  refine ⟨_, next_of_eq (hostKeyEvent_of_waitKey hm hk), ?_, rfl, fun r hr => ?_, rfl⟩
  · rw [State.getV_setMode, State.getV_setV_self, BitVec.toNat_ofNat, Nat.mod_eq_of_lt (by omega)]
  · rw [State.getV_setMode, State.getV_setV, if_neg hr]

/-- Settles O47: the instruction writes MODE alone, and the key event that ends the wait writes Vx and MODE. -/
theorem waitForKey : Obligations.WaitForKey := fun s x _ hk =>
  ⟨_, exec_ldVxKey x s, rfl, rfl, keyEvent_resumes (s := s.setMode (.waitKey x)) rfl hk⟩

/-! ### The halted and the waiting core -/

/-- Settles O59: in a halted core each operation is one of its cases that write nothing but the reply. -/
theorem haltedIsFrozen : Obligations.HaltedIsFrozen := by
  intro s op h hop
  have hm := mode_ne_run_of_halted h
  cases op with
  | step => exact ⟨s, coreStep_of_not_run hm, rfl⟩
  | reset => exact absurd rfl hop
  | load buf => exact ⟨s, next_of_eq (hostLoad_of_not_run hm), rfl⟩
  | tick => exact ⟨s, next_of_eq (hostTick_of_not_run hm), rfl⟩
  | keyDown k => exact ⟨s, next_of_eq (setKey_of_halted true h), rfl⟩
  | keyUp k => exact ⟨s, next_of_eq (setKey_of_halted false h), rfl⟩
  | keyEvent k => exact ⟨s, next_of_eq (hostKeyEvent_of_halted h), rfl⟩
  | isSet x y =>
    by_cases hxy : x < 64 ∧ y < 32
    · exact ⟨_, next_of_eq (hostIsSet_of_lt hxy.1 hxy.2), rfl⟩
    · exact ⟨_, next_of_eq (hostIsSet_of_ge_of_halted (by omega) h), rfl⟩
  | soundRead => exact ⟨_, rfl, rfl⟩
  | soundConsume => exact ⟨_, next_of_eq (hostSoundConsume_of_halted h), rfl⟩

/-- What an operation other than a reset and a key event may change while a key is awaited. -/
def WaitSurvives (x : Reg) (s t : State) : Prop :=
  (t.mode = .waitKey x ∨ t.isHalted = true) ∧
    t = { s with key := t.key, st := t.st, mode := t.mode, reply := t.reply }

theorem setKey_waitSurvives {x : Reg} {s : State} (hm : s.mode = .waitKey x) (k : Nat) (d : Bool) :
    WaitSurvives x s (setKey k d s) := by
  have h := isHalted_of_waitKey hm
  by_cases hk : k < 16
  · rw [setKey_of_lt d h hk]
    exact ⟨.inl hm, rfl⟩
  · rw [setKey_of_ge d h (Nat.not_lt.mp hk)]
    exact ⟨.inr rfl, rfl⟩

theorem hostIsSet_waitSurvives {z : Reg} {s : State} (hm : s.mode = .waitKey z) (x y : Nat) :
    WaitSurvives z s (hostIsSet x y s) := by
  by_cases hxy : x < 64 ∧ y < 32
  · rw [hostIsSet_of_lt hxy.1 hxy.2]
    exact ⟨.inl hm, rfl⟩
  · rw [hostIsSet_of_ge (by omega) (isHalted_of_waitKey hm)]
    exact ⟨.inr rfl, rfl⟩

/-- Settles O60: while a key is awaited, each operation but reset and key_event writes only what the host may write,
and a key event is the one that resumes. -/
theorem waitingIsFrozen : Obligations.WaitingIsFrozen := by
  intro s x hm
  have hrun := mode_ne_run_of_waitKey hm
  refine ⟨coreStep_of_not_run hrun, next_of_eq (hostTick_of_not_run hrun),
    fun buf => next_of_eq (hostLoad_of_not_run hrun), fun op hreset hevent => ?_, fun k hk => keyEvent_resumes hm hk⟩
  cases op with
  | step => exact ⟨s, coreStep_of_not_run hrun, .inl hm, rfl⟩
  | reset => exact absurd rfl hreset
  | load buf => exact ⟨s, next_of_eq (hostLoad_of_not_run hrun), .inl hm, rfl⟩
  | tick => exact ⟨s, next_of_eq (hostTick_of_not_run hrun), .inl hm, rfl⟩
  | keyDown k => exact ⟨_, rfl, setKey_waitSurvives hm k true⟩
  | keyUp k => exact ⟨_, rfl, setKey_waitSurvives hm k false⟩
  | keyEvent k => exact absurd rfl (hevent k)
  | isSet c r => exact ⟨_, rfl, hostIsSet_waitSurvives hm c r⟩
  | soundRead => exact ⟨_, rfl, .inl hm, rfl⟩
  | soundConsume =>
    exact ⟨_, next_of_eq (hostSoundConsume_of_not_halted (isHalted_of_waitKey hm)), .inl hm, rfl⟩

end Sys2Proof.Machine
end

section
/-! The step (40_control_flow.md section 1, 60_exceptions.md section 1): the two ways the core's turn comes, what its
step does with the word at PC, and that every step answers a next state. -/

namespace Sys2Proof.Machine

/-! ### The core's step -/

section
variable {s t : State} {op : Word} {i : Instr}

theorem coreStep_of_run (hm : s.mode = .run) (hpc : s.pc.toNat + 1 < 4096) :
    coreStep s = runWord s.wordAtPc s.advance := by
  obtain ⟨h, -⟩ | ⟨-, h, -⟩ | ⟨-, -, h⟩ := coreStep_cases s
  · exact absurd hm h
  · omega
  · exact h

theorem coreStep_of_fetch_fails (hm : s.mode = .run) (hpc : 4096 ≤ s.pc.toNat + 1) :
    coreStep s = .next (raiseFatal ⟨.memOob, s.pc.toNat⟩ s) := by
  obtain ⟨h, -⟩ | ⟨-, -, h⟩ | ⟨-, h, -⟩ := coreStep_cases s
  · exact absurd hm h
  · exact h
  · omega

theorem runWord_of_decodes (h : decodeWord op = .ok i) : runWord op s = exec i s := by rw [runWord, h]

theorem runWord_of_undefined (h : wordWellFormed op = false) : runWord op s = .next s := by
  rw [runWord, decodeWord_of_not_wellFormed h]
  rfl

/-- A fetched word is an instruction executed, or a no-op. -/
theorem runWord_cases (op : Word) (s : State) : (∃ i, runWord op s = exec i s) ∨ runWord op s = .next s := by
  cases hw : wordWellFormed op with
  | true =>
    obtain ⟨i, hi⟩ := (wordWellFormed_iff op).mp hw
    exact .inl ⟨i, runWord_of_decodes hi⟩
  | false => exact .inr (runWord_of_undefined hw)

/-- The core's turn comes with nothing scheduled, or with a step scheduled first (log entry 4). -/
theorem step_of_turn {s : State} {g : List Operation → Host.Outcome State Fault Refusal}
    (h : ∀ ops, coreStep { s with schedule := ops } = g ops) :
    (s.schedule = [] → step s = g s.schedule) ∧ ∀ rest, s.schedule = .step :: rest → step s = g rest :=
  ⟨fun hnil => (step_of_unscheduled s hnil).trans (h s.schedule),
    fun rest hcons => (step_of_scheduled s .step rest hcons).trans (h rest)⟩

/-- A step whose word at PC decodes runs the instruction on the state with PC advanced. -/
theorem step_of_decodes (hm : s.mode = .run) (hpc : s.pc.toNat + 1 < 4096) (hd : decodeWord s.wordAtPc = .ok i) :
    (s.schedule = [] → step s = exec i { s with pc := s.pc + 2 }) ∧
    (∀ rest, s.schedule = .step :: rest → step s = exec i { s with pc := s.pc + 2, schedule := rest }) :=
  step_of_turn (g := fun ops => exec i { s with pc := s.pc + 2, schedule := ops }) fun ops =>
    (coreStep_of_run (s := { s with schedule := ops }) hm hpc).trans (runWord_of_decodes hd)

end

/-- Settles O7, for both ways the core's turn comes. -/
theorem stepRunsDecodedInstruction : Obligations.StepRunsDecodedInstruction := fun _ _ => step_of_decodes

/-- Settles O8: a word without a row's pattern does not decode, and runs as a no-op. -/
theorem undefinedWordIsNoOp : Obligations.UndefinedWordIsNoOp := fun s hm hpc hw =>
  step_of_turn (g := fun ops => .next { s with pc := s.pc + 2, schedule := ops }) fun ops =>
    (coreStep_of_run (s := { s with schedule := ops }) hm hpc).trans (runWord_of_undefined hw)

/-- Settles O9: the fetch fails before PC is advanced. -/
theorem fetchOutOfRangeHalts : Obligations.FetchOutOfRangeHalts := fun s hm hpc =>
  step_of_turn (g := fun ops => .next { s with mode := .halted .memOob s.pc.toNat, schedule := ops }) fun ops =>
    coreStep_of_fetch_fails (s := { s with schedule := ops }) hm hpc

/-- Settles O24: the word at PC is the jump's own, and its target is PC. -/
theorem jumpToSelfIdles : Obligations.JumpToSelfIdles := by
  intro s nnn hm hpc htarget hword
  have hd : decodeWord s.wordAtPc = .ok (.jp nnn) := by rw [hword, decodeWord_encode]
  have hback : addrWord nnn = s.pc := BitVec.eq_of_toNat_eq (by rw [toNat_addrWord, htarget])
  obtain ⟨hnil, hcons⟩ := step_of_decodes hm hpc hd
  refine ⟨fun h => (hnil h).trans ?_, fun rest h => (hcons rest h).trans ?_⟩
  · rw [exec_jp, hback]; rfl
  · rw [exec_jp, hback]; rfl

/-! ### Every step answers -/

theorem exists_coreStep_eq_next (s : State) : ∃ t, coreStep s = .next t := by
  obtain ⟨-, h⟩ | ⟨-, -, h⟩ | ⟨-, -, h⟩ := coreStep_cases s
  · exact ⟨s, h⟩
  · exact ⟨_, h⟩
  · rw [h]
    obtain ⟨i, hi⟩ | hnop := runWord_cases (s.mem.read s.pc.toNat ++ s.mem.read (s.pc.toNat + 1)) s.advance
    · rw [hi]; exact exists_exec_eq_next i s.advance
    · exact ⟨_, hnop⟩

theorem exists_perform_eq_next (op : Operation) (s : State) : ∃ t, perform op s = .next t := by
  cases op with
  | step => exact exists_coreStep_eq_next s
  | _ => exact ⟨_, rfl⟩

/-- Settles O10: each operation of the interface answers a next state. -/
theorem stepAlwaysAnswers : Obligations.StepAlwaysAnswers := by
  intro s
  cases hs : s.schedule with
  | nil => rw [step_of_unscheduled s hs]; exact exists_coreStep_eq_next s
  | cons op rest => rw [step_of_scheduled s op rest hs]; exact exists_perform_eq_next op _

/-! ### Fatal conditions -/

/-- A step of the running core that halts it writes MODE alone, and PC where the fetch succeeded. -/
theorem coreStep_halted {s t : State} {cause : FatalCause} {info : Nat} (hm : s.mode = .run)
    (hs : coreStep s = .next t) (ht : t.mode = .halted cause info) :
    (4096 ≤ s.pc.toNat + 1 → t = { s with mode := .halted cause info }) ∧
    (s.pc.toNat + 1 < 4096 → t = { s with pc := s.pc + 2, mode := .halted cause info }) := by
  refine ⟨fun hpc => ?_, fun hpc => ?_⟩
  · rw [coreStep_of_fetch_fails hm hpc] at hs
    cases hs
    cases ht
    rfl
  · rw [coreStep_of_run hm hpc] at hs
    obtain ⟨i, hi⟩ | hnop := runWord_cases s.wordAtPc s.advance
    · exact (exec_halted (s := s.advance) hm (hi ▸ hs) ht).2
    · rw [hnop] at hs
      cases hs
      exact nomatch hm.symm.trans ht

/-- Settles O11, for both ways the core's turn comes. -/
theorem fatalIsAllOrNothing : Obligations.FatalIsAllOrNothing := by
  intro s t cause info hm hs ht
  refine ⟨fun hnil => ?_, fun rest hcons => ?_⟩
  · rw [step_of_unscheduled s hnil] at hs
    exact coreStep_halted hm hs ht
  · rw [step_of_scheduled s .step rest hcons] at hs
    exact coreStep_halted (s := { s with schedule := rest }) hm hs ht

end Sys2Proof.Machine
end

section
/-! The invariant (10_state.md sections 3 and 9) and reset (10_state.md section 8, 70_reset_and_hazards.md
section 1). -/

namespace Sys2Proof.Machine

/-! ### The invariant -/

/-- The invariant looks at memory, PC and the stack alone. -/
theorem State.Inv.congr {s t : State} (h : s.Inv) (hmem : t.mem = s.mem) (hpc : t.pc = s.pc)
    (hstack : t.stack = s.stack) : t.Inv := by
  rw [State.Inv, hmem, hpc, hstack]
  exact h

/-- PC advanced once or twice from inside the memory has not wrapped. -/
theorem toNat_add_two_of_le {w : Word} (h : w.toNat ≤ 4096) : (w + 2).toNat = w.toNat + 2 := by
  have h2 : (2 : Word).toNat = 2 := rfl
  rw [BitVec.toNat_add_of_lt (by rw [h2]; omega), h2]

theorem toNat_stack_set_le {stack : Vector Word 16} {j : Nat} {hj : j < 16} {w : Word} (hw : w.toNat ≤ 4096)
    (h : ∀ k : Fin 16, stack[k].toNat ≤ 4096) (k : Fin 16) : (stack.set j w)[k].toNat ≤ 4096 := by
  rw [Fin.getElem_fin, Vector.getElem_set]
  split
  · exact hw
  · exact h k

/-- An instruction found with PC at most 4096, where the fetch leaves it, keeps the invariant. -/
theorem exec_keeps_inv {i : Instr} {s t : State} (hmem : s.mem.wf) (hpc : s.pc.toNat ≤ 4096)
    (hstack : ∀ k : Fin 16, s.stack[k].toNat ≤ 4096) (he : exec i s = .next t) : t.Inv := by
  have hs : s.Inv := ⟨hmem, by omega, hstack⟩
  obtain ⟨f, -, rfl⟩ | hc := exec_cases he
  · exact hs.congr rfl rfl rfl
  · cases hc with
    | skip i hi c =>
      cases c with
      | false => exact hs
      | true => exact ⟨hmem, by rw [State.skipIf_pc, if_pos rfl, toNat_add_two_of_le hpc]; omega, hstack⟩
    | jp nnn => exact ⟨hmem, by rw [State.setPc_pc, toNat_addrWord]; omega, hstack⟩
    | jpV0 nnn => exact ⟨hmem, by rw [State.setPc_pc, toNat_addrWord_add_byteWord]; omega, hstack⟩
    | call nnn h =>
      have htarget : (addrWord nnn).toNat ≤ 0x10FE := by rw [toNat_addrWord]; omega
      exact ⟨hmem, htarget, toNat_stack_set_le (hj := h) hpc hstack⟩
    | ret h => exact ⟨hmem, Nat.le_trans (hstack ⟨s.sp.val - 1, by omega⟩) (by decide), hstack⟩
    | store i ws hi h => exact ⟨Memory.wf_writeBytes hmem h, hs.2⟩
    | _ => exact hs.congr rfl rfl rfl

theorem coreStep_keeps_inv {s t : State} (hs : s.Inv) (h : coreStep s = .next t) : t.Inv := by
  have ⟨hmem, _, hstack⟩ := hs
  obtain ⟨-, hc⟩ | ⟨-, -, hc⟩ | ⟨-, hpc, hc⟩ := coreStep_cases s <;> rw [hc] at h
  · cases h; exact hs
  · cases h; exact hs
  · have hadv : s.advance.pc.toNat ≤ 4096 := by rw [State.advance_pc, toNat_add_two_of_le (by omega)]; omega
    obtain ⟨i, hi⟩ | hnop := runWord_cases (s.mem.read s.pc.toNat ++ s.mem.read (s.pc.toNat + 1)) s.advance
    · exact exec_keeps_inv (s := s.advance) hmem hadv hstack (hi ▸ h)
    · rw [hnop] at h
      cases h
      exact ⟨hmem, by omega, hstack⟩

/-- Settles O14: nothing is listed in memory, and PC and the slots are 0. -/
theorem resetHasInv : Obligations.ResetHasInv := ⟨State.reset_mem_wf, by decide, by decide⟩

theorem hostLoad_keeps_inv {s : State} (hs : s.Inv) (buf : List Byte) : (hostLoad buf s).Inv := by
  by_cases hm : s.mode = .run
  · by_cases hfits : 512 + buf.length < 4096
    · rw [hostLoad_of_fits hm hfits]
      obtain ⟨hmem, -, hstack⟩ := hs
      exact ⟨Memory.wf_writeBytes hmem (by omega), (by decide : (512 : Word).toNat ≤ 0x10FE), hstack⟩
    · rw [hostLoad_of_too_large hm (by omega)]
      exact hs
  · rw [hostLoad_of_not_run hm]
    exact hs

theorem setKey_keeps_inv {s : State} (hs : s.Inv) (k : Nat) (d : Bool) : (setKey k d s).Inv := by
  unfold setKey
  split_ifs <;> exact hs

theorem hostKeyEvent_keeps_inv {s : State} (hs : s.Inv) (k : Nat) : (hostKeyEvent k s).Inv := by
  unfold hostKeyEvent
  split_ifs
  · exact hs
  · split <;> exact hs
  · exact hs

theorem hostIsSet_keeps_inv {s : State} (hs : s.Inv) (x y : Nat) : (hostIsSet x y s).Inv := by
  unfold hostIsSet
  split_ifs <;> exact hs

theorem hostTick_keeps_inv {s : State} (hs : s.Inv) : (hostTick s).Inv := by
  unfold hostTick
  split <;> exact hs

theorem hostSoundConsume_keeps_inv {s : State} (hs : s.Inv) : (hostSoundConsume s).Inv := by
  unfold hostSoundConsume
  split_ifs <;> exact hs

theorem perform_keeps_inv {op : Operation} {s t : State} (hs : s.Inv) (h : perform op s = .next t) : t.Inv := by
  cases op with
  | step => exact coreStep_keeps_inv hs h
  | reset => cases h; exact resetHasInv
  | load buf => cases h; exact hostLoad_keeps_inv hs buf
  | tick => cases h; exact hostTick_keeps_inv hs
  | keyDown k => cases h; exact setKey_keeps_inv hs k true
  | keyUp k => cases h; exact setKey_keeps_inv hs k false
  | keyEvent k => cases h; exact hostKeyEvent_keeps_inv hs k
  | isSet x y => cases h; exact hostIsSet_keeps_inv hs x y
  | soundRead => cases h; exact hs
  | soundConsume => cases h; exact hostSoundConsume_keeps_inv hs

/-- Settles O13: each operation, whichever agent performs it, keeps the invariant. -/
theorem stepKeepsInv : Obligations.StepKeepsInv := by
  intro s t hs h
  cases hsched : s.schedule with
  | nil => exact coreStep_keeps_inv hs (step_of_unscheduled s hsched ▸ h)
  | cons op rest =>
    exact perform_keeps_inv (s := { s with schedule := rest }) hs (step_of_scheduled s op rest hsched ▸ h)

/-! ### Reset -/

/-- Settles O15: the reset state field by field. -/
theorem resetValues : Obligations.ResetValues := by
  refine ⟨by decide, rfl, rfl, rfl, by decide, rfl, rfl, fun a => ?_, fun a ha => ?_, fun r c => ?_, by decide, rfl⟩
  · exact dif_pos a.isLt
  · exact dif_neg (Nat.not_lt.mpr ha)
  · exact Framebuffer.pixel_clear r c

/-- Settles O16: the operation puts the reset state in place of every field but the model's own. -/
theorem resetFromAnyState : Obligations.ResetFromAnyState := fun s rest hs =>
  ⟨_, step_of_scheduled s .reset rest hs, rfl, rfl, rfl, rfl, rfl, rfl, rfl, fun _ => rfl, rfl, rfl, rfl, rfl, rfl⟩

end Sys2Proof.Machine
end

section
/-! The stack (40_control_flow.md section 2) and the keys (44_keyboard_timers.md section 1). -/

namespace Sys2Proof.Machine

/-- Settles O18: a call below the full stack is one push and one jump. -/
theorem callPushesReturnAddress : Obligations.CallPushesReturnAddress := by
  intro s nnn h
  refine ⟨_, exec_call_of_lt nnn h, toNat_addrWord nnn, rfl, Vector.getElem_set_self .., fun k hk => ?_, rfl⟩
  exact Vector.getElem_set_ne h k.isLt hk.symm

/-- Settles O19: a return above the empty stack is one pop into PC. -/
theorem returnPopsAddress : Obligations.ReturnPopsAddress := by
  intro s h
  refine ⟨_, exec_ret_of_pos h, Nat.sub_add_cancel h, fun k hk => ?_, rfl⟩
  obtain ⟨k, hlt⟩ := k
  subst hk
  rfl

/-- Settles O20: the return pops the slot the call has just pushed, wherever PC has gone. -/
theorem returnUndoesCall : Obligations.ReturnUndoesCall := by
  intro s nnn p h
  refine ⟨_, _, exec_call_of_lt nnn h, exec_ret_of_pos (Nat.succ_pos _), ?_, rfl, ?_, fun k hk => ?_⟩
  · exact Vector.getElem_set_self ..
  · congr 1
    exact Vector.getElem_set_self ..
  · exact Vector.getElem_set_ne h k.isLt hk.symm

/-- Settles O21: the two stack faults are fatal conditions, taken on the state found. -/
theorem stackFaultsHalt : Obligations.StackFaultsHalt := fun _ =>
  ⟨fun nnn h => exec_of_raises (.call nnn h), fun h => exec_of_raises (.ret h)⟩

/-- Settles O45: with the key in range both skips read KEY at Vx. -/
theorem skipsOnKey : Obligations.SkipsOnKey := by
  intro s x k hk
  have hlt : (s.getV x).toNat < 16 := hk ▸ k.isLt
  have hread : s.key[(s.getV x).toNat] = s.key[k] := by simp only [hk, Fin.getElem_fin]
  refine ⟨⟨_, exec_skp_of_lt hlt, fun hd => ?_, fun hd => ?_, onlyPc_skipIf s _⟩,
    ⟨_, exec_sknp_of_lt hlt, fun hd => ?_, fun hd => ?_, onlyPc_skipIf s _⟩⟩ <;>
  rw [State.skipIf_pc, hread, hd] <;> rfl

/-- Settles O46: a key number out of range is a fatal condition of both skips. -/
theorem keyNumberOutOfRangeHalts : Obligations.KeyNumberOutOfRangeHalts := fun _ x h =>
  ⟨exec_of_raises (.skp x h), exec_of_raises (.sknp x h)⟩

end Sys2Proof.Machine
end

section
/-! Subtraction, shifts and the random byte (41_alu.md sections 3 to 5): the results and the flags as naturals, and what
the write of flag and result leaves where VF is itself an operand. -/

namespace Sys2Proof.Machine

/-! ### Results and flags as naturals -/

theorem toNat_greaterFlag (a b : Byte) : (greaterFlag a b).toNat = if b.toNat < a.toNat then 1 else 0 :=
  toNat_flagByte _

/-- The difference of two bytes is reduced modulo 256 to a residue that is not negative (R112). -/
theorem toNat_sub_byte (a b : Byte) : ((a - b).toNat : Int) = (a.toNat - b.toNat : Int) % 256 := by
  rw [BitVec.toNat_sub]
  omega

theorem toNat_shiftRight_one (a : Byte) : (a >>> 1).toNat = a.toNat / 2 := by
  rw [BitVec.toNat_ushiftRight, Nat.shiftRight_eq_div_pow]

theorem toNat_shiftLeft_one (a : Byte) : (a <<< 1).toNat = 2 * a.toNat % 256 := by
  rw [BitVec.toNat_shiftLeft, Nat.shiftLeft_eq, Nat.mul_comm]

theorem toNat_lowBitFlag (a : Byte) : (lowBitFlag a).toNat = a.toNat % 2 := by
  rw [lowBitFlag, BitVec.toNat_and]
  exact Nat.and_one_is_mod a.toNat

theorem toNat_highBitFlag (a : Byte) : (highBitFlag a).toNat = a.toNat / 128 := by
  have h : (a >>> 7).toNat = a.toNat / 128 := by rw [BitVec.toNat_ushiftRight, Nat.shiftRight_eq_div_pow]
  rw [highBitFlag, ← lowBitFlag, toNat_lowBitFlag, h]
  omega

/-! ### The obligations -/

/-- Settles O29: the flag is written first, the difference after it. -/
theorem subSetsStrictGreater : Obligations.SubSetsStrictGreater := by
  intro s x y
  refine ⟨_, exec_subReg x y s, ?_, fun hx => ?_, onlyRegAndFlag_setFlagged s x _ _⟩
  · rw [State.getV_setFlagged_self, toNat_sub_byte]
  · rw [State.getV_setFlagged_vf hx, toNat_greaterFlag]

/-- Settles O30: as O29 with the operands exchanged. -/
theorem subnSetsStrictGreater : Obligations.SubnSetsStrictGreater := by
  intro s x y
  refine ⟨_, exec_subn x y s, ?_, fun hx => ?_, onlyRegAndFlag_setFlagged s x _ _⟩
  · rw [State.getV_setFlagged_self, toNat_sub_byte]
  · rw [State.getV_setFlagged_vf hx, toNat_greaterFlag]

/-- Settles O31: the bit moved out is written first, the half after it. -/
theorem shrMovesLowBitToFlag : Obligations.ShrMovesLowBitToFlag := by
  intro s x y
  refine ⟨_, exec_shr x y s, ?_, fun hx => ?_, onlyRegAndFlag_setFlagged s x _ _⟩
  · rw [State.getV_setFlagged_self, toNat_shiftRight_one]
  · rw [State.getV_setFlagged_vf hx, toNat_lowBitFlag]

/-- Settles O32: the bit moved out is written first, the double after it. -/
theorem shlMovesHighBitToFlag : Obligations.ShlMovesHighBitToFlag := by
  intro s x y
  refine ⟨_, exec_shl x y s, ?_, fun hx => ?_, onlyRegAndFlag_setFlagged s x _ _⟩
  · rw [State.getV_setFlagged_self, toNat_shiftLeft_one]
  · rw [State.getV_setFlagged_vf hx, toNat_highBitFlag]

/-- With x = 15 the register and the flag are the same. -/
theorem OnlyRegAndFlag.onlyReg {s t : State} (h : OnlyRegAndFlag s t vf) : OnlyReg s t vf :=
  ⟨fun r hr => h.1 r hr hr, h.2⟩

/-- Settles O33: the statements of the flag-writing instructions, read at x = 15 and at y = 15. -/
theorem flagRegisterAsOperand : Obligations.FlagRegisterAsOperand := by
  intro s z
  refine ⟨?_, ?_, ?_, ?_, ?_, fun hz => ⟨?_, ?_, ?_⟩⟩
  · obtain ⟨t, he, hresult, -, honly⟩ := addSetsCarry s vf z
    exact ⟨t, he, honly.onlyReg, hresult⟩
  · obtain ⟨t, he, hresult, -, honly⟩ := subSetsStrictGreater s vf z
    exact ⟨t, he, honly.onlyReg, hresult⟩
  · obtain ⟨t, he, hresult, -, honly⟩ := shrMovesLowBitToFlag s vf z
    exact ⟨t, he, honly.onlyReg, hresult⟩
  · obtain ⟨t, he, hresult, -, honly⟩ := subnSetsStrictGreater s vf z
    exact ⟨t, he, honly.onlyReg, hresult⟩
  · obtain ⟨t, he, hresult, -, honly⟩ := shlMovesHighBitToFlag s vf z
    exact ⟨t, he, honly.onlyReg, hresult⟩
  · obtain ⟨t, he, hresult, hflag, honly⟩ := addSetsCarry s z vf
    exact ⟨t, he, honly, hresult, hflag hz⟩
  · obtain ⟨t, he, hresult, hflag, honly⟩ := subSetsStrictGreater s z vf
    exact ⟨t, he, honly, hresult, hflag hz⟩
  · obtain ⟨t, he, hresult, hflag, honly⟩ := subnSetsStrictGreater s z vf
    exact ⟨t, he, honly, hresult, hflag hz⟩

/-- Settles O34: the byte drawn and the mask meet bit by bit. -/
theorem randomUnderMask : Obligations.RandomUnderMask := by
  intro s x kk
  refine ⟨_, exec_rnd x kk s, State.getV_setV_self .., fun k hk => ?_, fun r hr => ?_, rfl, rfl⟩
  · rw [State.getV_setV_self, BitVec.getLsbD_and, hk, Bool.and_false]
  · rw [State.getV_setV, if_neg hr, State.getV_drawn]

/-- Settles O36: the byte is extended to 16 bits, and the sum is reduced modulo 2 ^ 16. -/
theorem addIndexWraps : Obligations.AddIndexWraps := by
  intro s x
  refine ⟨_, exec_addI x s, ?_, s.setI_frame _⟩
  rw [State.setI_i, indexSum, BitVec.toNat_add, toNat_byteWord]

end Sys2Proof.Machine
end

section
/-! The stores and loads (42_index_memory.md section 2, 20_memory.md section 6). -/

namespace Sys2Proof.Machine

/-! ### The bytes of a store and of a load -/

theorem length_getVs_blockRegs (s : State) (x : Reg) : (s.getVs (blockRegs true x)).length = x.val + 1 := by
  rw [State.getVs, List.length_map, length_blockRegs]
  rfl

/-- The k-th byte of the register block is Vk. -/
theorem getElem_getVs_blockRegs (s : State) (x r : Reg) (h : r.val < (s.getVs (blockRegs true x)).length) :
    (s.getVs (blockRegs true x))[r.val] = s.getV r := by
  have hr : r.val < (blockRegs true x).length := by rwa [State.getVs, List.length_map] at h
  have hk : (blockRegs true x)[r.val] = r := Fin.ext (getElem_blockRegs true x r.val hr)
  simp only [State.getVs, List.getElem_map, hk]

/-- A store of V0..Vx leaves Vr at the r-th address from I. -/
theorem read_storeRegs (s : State) {x r : Reg} (h : r ≤ x) :
    (s.mem.writeBytes s.i.toNat (s.getVs (blockRegs true x))).read (s.i.toNat + r.val) = s.getV r := by
  have hlen : r.val < (s.getVs (blockRegs true x)).length := by
    rw [length_getVs_blockRegs]
    exact Nat.lt_succ_of_le h
  rw [s.mem.read_writeBytes_add s.i.toNat _ hlen, getElem_getVs_blockRegs]

/-- A load of V0..Vx writes each Vr with the r-th byte read. -/
theorem getV_loadRegs (s : State) {x r : Reg} (h : r ≤ x) (a : Nat) :
    (s.setVs ((blockRegs true x).zip ((List.range' a (x.val + 1)).map s.mem.read))).getV r =
      s.mem.read (a + r.val) := by
  have hlen : (blockRegs true x).length = ((List.range' a (x.val + 1)).map s.mem.read).length := by
    rw [length_blockRegs, List.length_map, List.length_range']
    rfl
  have hr : r.val < (blockRegs true x).length := by
    rw [hlen, List.length_map, List.length_range']
    exact Nat.lt_succ_of_le h
  have hk : (blockRegs true x)[r.val] = r := Fin.ext (getElem_blockRegs true x r.val hr)
  refine State.getV_setVs_of_mem s _ ?_ (r, s.mem.read (a + r.val)) (List.mem_iff_getElem.mpr ⟨r.val, ?_, ?_⟩)
  · rw [List.map_fst_zip hlen.le]
    exact blockRegs_nodup true x
  · rw [List.length_zip, ← hlen, min_self]
    exact hr
  · rw [List.getElem_zip, hk, List.getElem_map, List.getElem_range', one_mul]

/-! ### The obligations -/

/-- Settles O37: three bytes are written from I on, the digits of Vx. -/
theorem bcdStoresDigits : Obligations.BcdStoresDigits := by
  intro s x h
  have hbyte := (s.getV x).isLt
  have hread (k : Nat) (hk : k < 3) :
      (s.mem.writeBytes s.i.toNat (bcdDigits (s.getV x))).read (s.i.toNat + k) = (bcdDigits (s.getV x))[k] :=
    s.mem.read_writeBytes_add s.i.toNat _ hk
  refine ⟨_, exec_ldBcd_of_lt x h, ?_, ?_, ?_, fun a ha => s.mem.read_writeBytes_outside ?_, rfl⟩
  · refine (congrArg BitVec.toNat (hread 0 (by decide))).trans ?_
    exact (BitVec.toNat_ofNat _ _).trans (Nat.mod_eq_of_lt (by omega))
  · refine (congrArg BitVec.toNat (hread 1 (by decide))).trans ?_
    exact (BitVec.toNat_ofNat _ _).trans (Nat.mod_eq_of_lt (by omega))
  · refine (congrArg BitVec.toNat (hread 2 (by decide))).trans ?_
    exact (BitVec.toNat_ofNat _ _).trans (Nat.mod_eq_of_lt (by omega))
  · have hlen : (bcdDigits (s.getV x)).length = 3 := rfl
    omega

/-- Settles O38: the register block is written from I on. -/
theorem storeRegsStoresBlock : Obligations.StoreRegsStoresBlock := by
  intro s x h
  refine ⟨_, exec_storeRegs_of_lt h, fun r hr => read_storeRegs s hr,
    fun a ha => s.mem.read_writeBytes_outside ?_, rfl⟩
  rw [length_getVs_blockRegs]
  omega

/-- Settles O39: each register of the block is written once, with its own byte. -/
theorem loadRegsLoadsBlock : Obligations.LoadRegsLoadsBlock := fun s _ h =>
  ⟨_, exec_loadRegs_of_lt h, fun _ hr => getV_loadRegs s hr s.i.toNat,
    fun _ hr => s.getV_setVs_blockRegs_of_not_le (not_le.mpr hr) _, s.setVs_frame _⟩

/-- Settles O40: a block that reaches past 4095 is a fatal condition, taken on the state found. -/
theorem blockOutOfRangeHalts : Obligations.BlockOutOfRangeHalts := fun _ x y n =>
  ⟨fun h => exec_of_raises (.ldBcd x h),
    fun h => ⟨exec_of_raises (.storeRegs x h), exec_of_raises (.loadRegs x h)⟩,
    fun hn h => exec_of_raises (.drw x y n hn h)⟩

/-- Settles O41: the store leaves the two registers at PC and PC + 1, where the next step fetches its word. -/
theorem storeIsFetchedNext : Obligations.StoreIsFetchedNext := by
  intro s x a b i hm hpc hfits hab hbx hat hd
  have hbat : s.i.toNat + b.val = s.pc.toNat + 1 := by omega
  have hax : a ≤ x := (Fin.le_def.mpr (by omega : a.val ≤ b.val)).trans hbx
  have hword : (s.setMem (s.mem.writeBytes s.i.toNat (s.getVs (blockRegs true x)))).wordAtPc =
      wordOfBytes (s.getV a) (s.getV b) := by
    rw [State.wordAtPc, State.setMem_mem, State.setMem_pc, ← hbat, ← hat, read_storeRegs s hax,
      read_storeRegs s hbx]
  rw [← hword] at hd
  generalize ht : s.setMem (s.mem.writeBytes s.i.toNat (s.getVs (blockRegs true x))) = t at hd
  have hmode : t.mode = .run := by rw [← ht]; exact hm
  have hbound : t.pc.toNat + 1 < 4096 := by rw [← ht]; exact hpc
  have hsched : t.schedule = s.schedule := by rw [← ht]; rfl
  obtain ⟨hnil, hcons⟩ := step_of_decodes hmode hbound hd
  exact ⟨t, ht ▸ exec_storeRegs_of_lt hfits, fun h => hnil (hsched.trans h),
    fun rest h => hcons rest (hsched.trans h)⟩

end Sys2Proof.Machine
end

section
/-! Drawing (43_display.md sections 2 and 3): the sprite's pixels are those it covers, each flipped once. -/

namespace Sys2Proof.Machine

/-! ### The sprite of a draw -/

/-- The pixel lies under a 1 bit of the sprite of n bytes at I, drawn where Vx and Vy say. -/
abbrev State.Covers (s : State) (x y : Reg) (n : Nibble) (r : Fin 32) (c : Fin 64) : Prop :=
  SpriteCovers s.mem s.i.toNat (s.getV x).toNat (s.getV y).toNat n.toNat r c

section
variable (s : State) (x y : Reg) (n : Nibble)

/-- The bytes read give the pixels covered. -/
theorem mem_spritePixels_iff_covers (r : Fin 32) (c : Fin 64) :
    (r, c) ∈ spritePixels ((List.range' s.i.toNat n.toNat).map s.mem.read) (s.getV x).toNat (s.getV y).toNat ↔
      s.Covers x y n r c := by
  simp only [mem_spritePixels, SpriteCovers, List.length_map, List.length_range', List.getElem_map,
    List.getElem_range', one_mul, exists_prop]

/-- A sprite has at most 15 rows, so no pixel stands in it twice. -/
theorem drawnSprite_spec :
    (∀ r c, (s.drawnSprite x y n).1.pixel r c = if (r, c) ∈ spritePixels
        ((List.range' s.i.toNat n.toNat).map s.mem.read) (s.getV x).toNat (s.getV y).toNat
      then !(s.fb.pixel r c) else s.fb.pixel r c) ∧
    ((s.drawnSprite x y n).2 = true ↔ ∃ r c, s.Covers x y n r c ∧ s.fb.pixel r c = true) := by
  have hrows : ((List.range' s.i.toNat n.toNat).map s.mem.read).length ≤ 32 := by
    rw [List.length_map, List.length_range']
    omega
  obtain ⟨hpixel, hcoll⟩ := flipPixels_spec _ s.fb false
    (spritePixels_nodup _ (s.getV x).toNat (s.getV y).toNat hrows)
  refine ⟨hpixel, hcoll.trans ?_⟩
  simp only [Bool.false_eq_true, false_or, Prod.exists, mem_spritePixels_iff_covers]

variable {s x y n}

theorem pixel_drawnSprite_of_covers {r : Fin 32} {c : Fin 64} (h : s.Covers x y n r c) :
    (s.drawnSprite x y n).1.pixel r c = !(s.fb.pixel r c) := by
  rw [(drawnSprite_spec s x y n).1, if_pos ((mem_spritePixels_iff_covers s x y n r c).mpr h)]

theorem pixel_drawnSprite_of_not_covers {r : Fin 32} {c : Fin 64} (h : ¬ s.Covers x y n r c) :
    (s.drawnSprite x y n).1.pixel r c = s.fb.pixel r c := by
  rw [(drawnSprite_spec s x y n).1, if_neg (mt (mem_spritePixels_iff_covers s x y n r c).mp h)]

theorem collision_drawnSprite_iff :
    (s.drawnSprite x y n).2 = true ↔ ∃ r c, s.Covers x y n r c ∧ s.fb.pixel r c = true :=
  (drawnSprite_spec s x y n).2

end

/-! ### The obligations -/

/-- Settles O43: the framebuffer drawn and the collision, and then the one write of VF. -/
theorem drawFlipsCoveredPixels : Obligations.DrawFlipsCoveredPixels := by
  intro s x y n h
  refine ⟨_, exec_drw_of_fits x y h, fun r c => pixel_drawnSprite_of_covers,
    fun r c => pixel_drawnSprite_of_not_covers, fun hset => ?_, fun hclear => ?_, fun r hr => ?_, rfl⟩
  · rw [State.getV_setV_self, collision_drawnSprite_iff.mpr hset]
    rfl
  · rw [State.getV_setV_self, Bool.eq_false_iff.mpr (mt collision_drawnSprite_iff.mp hclear)]
    rfl
  · rw [State.getV_setV, if_neg hr, State.getV_setFb]

/-- A state with the same memory, I, Vx and Vy has the same pixels under the sprite. -/
theorem State.Covers.congr {s t : State} {x y : Reg} (hmem : t.mem = s.mem) (hi : t.i = s.i)
    (hx : t.getV x = s.getV x) (hy : t.getV y = s.getV y) (n : Nibble) (r : Fin 32) (c : Fin 64) :
    t.Covers x y n r c = s.Covers x y n r c := by
  rw [State.Covers, hmem, hi, hx, hy]

/-- Settles O44: the second draw covers the same pixels, and flips each back. -/
theorem drawTwiceRestores : Obligations.DrawTwiceRestores := by
  intro s x y n hx hy h
  obtain ⟨t, ht, hflip, hkeep, -, -, hreg, hframe⟩ := drawFlipsCoveredPixels s x y n h
  have hmem : t.mem = s.mem := by rw [hframe]
  have hi : t.i = s.i := by rw [hframe]
  have hcov := State.Covers.congr hmem hi (hreg x hx) (hreg y hy) n
  obtain ⟨u, hu, hflip', hkeep', hset, hclear, -, -⟩ := drawFlipsCoveredPixels t x y n (hi ▸ h)
  simp only [hcov] at hflip' hkeep' hset hclear
  refine ⟨t, u, ht, hu, Framebuffer.ext_pixel fun r c => ?_, fun hone => ?_, hset⟩
  · by_cases hc : s.Covers x y n r c
    · rw [hflip' r c hc, hflip r c hc, Bool.not_not]
    · rw [hkeep' r c hc, hkeep r c hc]
  · by_contra hnone
    rw [hclear hnone] at hone
    exact absurd hone (by decide)

end Sys2Proof.Machine
end
